-- ==== Sys2Proof/Word.lean ====
section
/-! DEFINITION. The one word of the machine: every register, memory cell and address is an unsigned byte (00_scope.md R8, 10_state.md R16, 20_memory.md R35). -/

namespace Sys2Proof

/-- A byte, 0..255 (R8). Also an address: there are 256 of them, and address arithmetic is modulo 256 (R40). -/
abbrev Byte := BitVec 8

end Sys2Proof
end

