-- ==== Sys2Proof/Syntax.lean ====
section
/-! DEFINITION. The instructions: one constructor per row of spec/opcode_table.json (30_encoding.md R54, R58). -/

namespace Sys2Proof

/-- The index of a general register, 0..7 (10_state.md R16). A register-index byte above 7 names no register and is
refused at decode (30_encoding.md R55), so no `Instr` holds one. -/
abbrev Reg := Fin 8

/-- The interrupt status register IS is general register 6 (R9, R18). -/
abbrev Reg.is : Reg := 6

/-- The stack pointer SP is general register 7 (R9, R19). -/
abbrev Reg.sp : Reg := 7

/-- The four instruction formats (R54). -/
inductive Format where
  /-- One byte: the opcode. -/
  | f0
  /-- Two bytes: the opcode and a register index. -/
  | f1r
  /-- Three bytes: the opcode and two register indices. -/
  | f2rr
  /-- Three bytes: the opcode, a register index and an immediate. -/
  | f2ri
deriving DecidableEq, Repr

/-- An instruction with its operands in the order of its bytes (R54, R58). -/
inductive Instr where
  /-- Load immediate (41_transfer.md R76). -/
  | ldi (r : Reg) (imm : Byte)
  /-- Add registers (42_alu.md R80). -/
  | add (a b : Reg)
  /-- Multiply registers (42_alu.md R81). -/
  | mul (a b : Reg)
  /-- Compare registers (42_alu.md R82). -/
  | cmp (a b : Reg)
  /-- Store register to memory (41_transfer.md R77). -/
  | st (a b : Reg)
  /-- Push register (43_stack.md R86). -/
  | push (r : Reg)
  /-- Pop into register (43_stack.md R87). -/
  | pop (r : Reg)
  /-- Call subroutine at register (44_control.md R94). -/
  | call (r : Reg)
  /-- Return from subroutine (44_control.md R95). -/
  | ret
  /-- Jump to register (44_control.md R89). -/
  | jmp (r : Reg)
  /-- Jump if equal (44_control.md R90). -/
  | jeq (r : Reg)
  /-- Jump if not equal (44_control.md R91). -/
  | jne (r : Reg)
  /-- Jump if less (44_control.md R92). -/
  | jlt (r : Reg)
  /-- Jump if greater (44_control.md R93). -/
  | jgt (r : Reg)
  /-- Print register as a decimal number (45_output_halt.md R97). -/
  | prn (r : Reg)
  /-- Print register as a character (45_output_halt.md R98). -/
  | pra (r : Reg)
  /-- Halt (45_output_halt.md R99). -/
  | hlt
deriving DecidableEq, Repr

end Sys2Proof
end

