-- ==== Sys2Proof/WellFormed.lean ====
section
/-! DEFINITION. Which three fetched bytes hold a well-formed instruction, said from the format tables of the spec
(30_encoding.md R54, R55, R58) and apart from the decoder. An `Instr` itself is always well-formed: its register
indices are `Fin 8` and its immediate is any byte. -/

namespace Sys2Proof

/-- The opcode map of R58, each opcode with its format. -/
def opcodeFormats : List (Byte × Format) :=
  [(0x99#8, .f2ri), (0xA8#8, .f2rr), (0xAA#8, .f2rr), (0xA0#8, .f2rr), (0x9A#8, .f2rr),
   (0x4D#8, .f1r), (0x4C#8, .f1r), (0x48#8, .f1r), (0x09#8, .f0),
   (0x50#8, .f1r), (0x51#8, .f1r), (0x52#8, .f1r), (0x53#8, .f1r), (0x54#8, .f1r),
   (0x43#8, .f1r), (0x42#8, .f1r), (0x01#8, .f0)]

/-- The format of a valid opcode; none for the 239 invalid ones (R59). -/
def formatOf (op : Byte) : Option Format := opcodeFormats.lookup op

/-- A byte that names a register: 0..7 (R55). -/
def isRegByte (b : Byte) : Bool := b.toNat ≤ 7

/-- The operand bytes a format checks: `b1` and `b2` where they are register indices, nothing else (R55, R56, R57). -/
def Format.operandsOk : Format → Byte → Byte → Bool
  | .f0, _, _ => true
  | .f1r, b1, _ => isRegByte b1
  | .f2rr, b1, b2 => isRegByte b1 && isRegByte b2
  | .f2ri, b1, _ => isRegByte b1

/-- The bytes `op`, `b1`, `b2` hold a well-formed instruction: the opcode is valid and every register-index operand
is at most 7. -/
def wellFormed (op b1 b2 : Byte) : Bool :=
  match formatOf op with
  | none => false
  | some f => f.operandsOk b1 b2

end Sys2Proof
end

