-- ==== Sys2Proof/Decode.lean ====
section
/-! DEFINITION. Decoding three fetched bytes, total and rejecting by name (30_encoding.md R61), and then the encoder
written from the same tables (R54, R58). -/

namespace Sys2Proof

/-- What decoding answers (R61). -/
inductive Decoded where
  /-- The instruction the bytes hold. -/
  | instr (i : Instr)
  /-- The opcode byte is in no row of the opcode map (R59). -/
  | invalid (op : Byte)
  /-- The opcode is valid and `b` is its first register-index operand above 7 (R55). -/
  | badReg (op b : Byte)
deriving DecidableEq, Repr

/-- The operand count `opcode[7:6]` (R52). -/
def operandCount (op : Byte) : Byte := op >>> 6

/-- The length in bytes of an instruction with this opcode (R53). -/
def instrLength (op : Byte) : Nat := 1 + (operandCount op).toNat

/-- The register a register-index byte names: not masked, none above 7 (R55). -/
def decodeReg (b : Byte) : Option Reg :=
  if h : b.toNat < 8 then some ⟨b.toNat, h⟩ else none

/-- One register-index operand in byte 1: the formats F1R and F2RI (R54, R61). -/
def decodeR (op b1 : Byte) (mk : Reg → Instr) : Decoded :=
  match decodeReg b1 with
  | some r => .instr (mk r)
  | none => .badReg op b1

/-- Two register-index operands: the format F2RR. `b1` is reported before `b2` (R61). -/
def decodeRR (op b1 b2 : Byte) (mk : Reg → Reg → Instr) : Decoded :=
  match decodeReg b1, decodeReg b2 with
  | some a, some b => .instr (mk a b)
  | none, _ => .badReg op b1
  | some _, none => .badReg op b2

/-- The decode function of R61, total on any three bytes. -/
def decode (op b1 b2 : Byte) : Decoded :=
  match op with
  | 0x99#8 => decodeR op b1 (fun r => .ldi r b2)
  | 0xA8#8 => decodeRR op b1 b2 .add
  | 0xAA#8 => decodeRR op b1 b2 .mul
  | 0xA0#8 => decodeRR op b1 b2 .cmp
  | 0x9A#8 => decodeRR op b1 b2 .st
  | 0x4D#8 => decodeR op b1 .push
  | 0x4C#8 => decodeR op b1 .pop
  | 0x48#8 => decodeR op b1 .call
  | 0x09#8 => .instr .ret
  | 0x50#8 => decodeR op b1 .jmp
  | 0x51#8 => decodeR op b1 .jeq
  | 0x52#8 => decodeR op b1 .jne
  | 0x53#8 => decodeR op b1 .jlt
  | 0x54#8 => decodeR op b1 .jgt
  | 0x43#8 => decodeR op b1 .prn
  | 0x42#8 => decodeR op b1 .pra
  | 0x01#8 => .instr .hlt
  | _ => .invalid op

/-- The control-transfer set CTL, given by list (R62). -/
def isControlTransfer (op : Byte) : Bool :=
  op == 0x48#8 || op == 0x50#8 || op == 0x09#8 || op == 0x51#8 || op == 0x54#8 || op == 0x53#8 || op == 0x52#8

/-- The opcode byte of an instruction (R58). -/
def Instr.opcode : Instr → Byte
  | .ldi _ _ => 0x99#8
  | .add _ _ => 0xA8#8
  | .mul _ _ => 0xAA#8
  | .cmp _ _ => 0xA0#8
  | .st _ _ => 0x9A#8
  | .push _ => 0x4D#8
  | .pop _ => 0x4C#8
  | .call _ => 0x48#8
  | .ret => 0x09#8
  | .jmp _ => 0x50#8
  | .jeq _ => 0x51#8
  | .jne _ => 0x52#8
  | .jlt _ => 0x53#8
  | .jgt _ => 0x54#8
  | .prn _ => 0x43#8
  | .pra _ => 0x42#8
  | .hlt => 0x01#8

/-- The byte that names a register (R55). -/
def encodeReg (r : Reg) : Byte := BitVec.ofNat 8 r.val

/-- The operand bytes of an instruction, in the order of its format (R54). -/
def Instr.operandBytes : Instr → List Byte
  | .ldi r imm => [encodeReg r, imm]
  | .add a b => [encodeReg a, encodeReg b]
  | .mul a b => [encodeReg a, encodeReg b]
  | .cmp a b => [encodeReg a, encodeReg b]
  | .st a b => [encodeReg a, encodeReg b]
  | .push r => [encodeReg r]
  | .pop r => [encodeReg r]
  | .call r => [encodeReg r]
  | .ret => []
  | .jmp r => [encodeReg r]
  | .jeq r => [encodeReg r]
  | .jne r => [encodeReg r]
  | .jlt r => [encodeReg r]
  | .jgt r => [encodeReg r]
  | .prn r => [encodeReg r]
  | .pra r => [encodeReg r]
  | .hlt => []

/-- The bytes of an instruction, the opcode first, at ascending addresses (R54, R38). -/
def encode (i : Instr) : List Byte := i.opcode :: i.operandBytes

/-- Byte `k` of an instruction whose first `nbits` bits are `w`, bit 0 the least significant bit of the first byte;
the bits from `nbits` on are 0. -/
def tableByte (nbits w k : Nat) : Byte := BitVec.ofNat 8 ((w % 2 ^ nbits) >>> (8 * k))

/-- The instruction the decoder reads from an instruction whose bits are `w`, numbered as spec/opcode_table.json
numbers them; none where it refuses. -/
def decodeTableWord (nbits w : Nat) : Option Instr :=
  match decode (tableByte nbits w 0) (tableByte nbits w 1) (tableByte nbits w 2) with
  | .instr i => some i
  | .invalid _ => none
  | .badReg _ _ => none

end Sys2Proof
end

