-- ==== Sys2Proof/Config.lean ====
section
/-! DEFINITION. The parameters of 00_scope.md R6 that have a value, and the two reset contents the spec leaves open. -/

namespace Sys2Proof

/-- The initial stack pointer (R6, R34). -/
def Config.initialSp : Byte := 0xF4#8

/-- The address of the interrupt vector (R6, 20_memory.md R43). -/
def Config.vectorAddr : Byte := 0xF8#8

/-- The address of the program image's first byte, and `pc` at reset (R6, R34, R43). -/
def Config.loadAddr : Byte := 0x00#8

/-- `RESET_GPR`, the reset value of R0..R5.
DESIGN CHOICE (unsafe, log entry 1): the spec leaves it open (D8); `State.resetWith` takes any other value. -/
def Config.resetGpr : Byte := 0x00#8

/-- What an address that memory does not list reads as (`MEM_INIT`).
DESIGN CHOICE (unsafe, log entry 2): the spec leaves it open (D9); `State.resetWith` takes any other contents. -/
def Config.unlistedByte : Byte := 0x00#8

end Sys2Proof
end

