-- ==== Sys2Proof/Machine/State.lean ====
section
/-! DEFINITION. The state of the machine as plain data (10_state.md R15), why a step can stop, and the state after
reset (R34). -/

namespace Sys2Proof.Machine

/-- The two synchronous exceptions, with the bytes they record (60_exceptions.md R100). -/
inductive Exc where
  /-- The fetched opcode byte `op` is not one of the 17 valid ones (R101). -/
  | invalidOpcode (op : Byte)
  /-- A register-index operand byte `b` of the valid opcode `op` is above 7 (R102). -/
  | badRegister (op b : Byte)
deriving DecidableEq, Repr

/-- Why a run has halted (R30). -/
inductive HaltReason where
  /-- The HLT instruction. -/
  | hlt
  /-- A fatal exception: `InvalidOpcode(op)` or `BadRegister(op, b)`. -/
  | raised (e : Exc)
  /-- The host's `stop()`. -/
  | externalStop
deriving DecidableEq, Repr

/-- The run state (R30). -/
inductive RunState where
  /-- Powered, the clock not yet started; the host may load and poke. -/
  | idle
  /-- The clock fires cycles. -/
  | running
  /-- No further cycle runs; no transition leaves it. -/
  | halted (r : HaltReason)
deriving DecidableEq, Repr

/-- The kind of an output event (R33). -/
inductive OutKind where
  /-- From PRN: show the decimal form. -/
  | dec
  /-- From PRA: show the character. -/
  | chr
deriving DecidableEq, Repr

/-- One event sent to the output sink (R33, 45_output_halt.md R96). -/
structure OutEvent where
  kind : OutKind
  value : Byte
deriving DecidableEq, Repr

/-- One record sent to the error report sink: `(1, op)` is code 1 with `[op]`, `(2, op, b)` is code 2 with `[op, b]`
(60_exceptions.md R103). -/
structure ErrorReport where
  code : Nat
  info : List Byte
deriving DecidableEq, Repr

/-- The 256 bytes of memory (20_memory.md R35) as a list of (address, byte) pairs: addresses strictly rising, all
below 256, and no entry equal to what an unlisted address reads as (`Memory.wf`). -/
abbrev Memory := List Host.Cell

/-- The machine's state (R15). -/
structure State where
  /-- The general registers R0..R7; R6 is also IS and R7 is also SP (R16, R18, R19). -/
  x : Vector Byte 8
  /-- The program counter (R20). -/
  pc : Byte
  /-- The flags register FL: bit 0 E, bit 1 G, bit 2 L (R23, R24). -/
  fl : Byte
  /-- Memory (R35). -/
  mem : Memory
  /-- The run state (R30). -/
  run : RunState
  /-- What the core has sent to the output sink, oldest first (R33). -/
  out : List OutEvent
  /-- What the core has sent to the error report sink, oldest first (R103).
  DESIGN CHOICE (safe, log entry 6): R15 leaves this port's record out of the tuple. -/
  reports : List ErrorReport
deriving DecidableEq, Repr

/-- Why the machine has no step. Both are raised by `step` alone, never by an instruction, and both are safe: the
spec says the core has no step there (40_cycle.md R75). -/
inductive Fault where
  /-- Raised by `step` when `run` is Idle: the clock has not been started. Safe. -/
  | idle
  /-- Raised by `step` when `run` is Halted: no cycle follows a halt. Safe. -/
  | halted
deriving DecidableEq, Repr

/-- What the model has no move for. No instruction ends in a refusal: but for `notModelled` each is raised by a host
or stimulus action that 70_reset_and_hazards.md R128 or 60_exceptions.md R107 does not allow in that state. -/
inductive Refusal where
  /-- Raised by `exec` for an instruction without a meaning; no arm does. Safe. -/
  | notModelled (mnemonic : String)
  /-- Raised by `hostLoad` and `hostPoke` when `run` is not Idle (R128, D28). Safe. -/
  | memoryNotIdle
  /-- Raised by `hostLoad` when the image has more than 256 bytes; the spec gives it no effect. Safe. -/
  | imageTooLong
  /-- Raised by `hostStart` when `run` is not Idle: not defined by the source, a model refuses it (R128, D13). Safe. -/
  | startNotIdle
  /-- Raised by `hostStop` when `run` is Halted (R128). Safe. -/
  | stopAfterHalt
  /-- Raised by `stimulus` on the byte 0: the stimulus writes a nonzero byte (R107). Safe. -/
  | stimulusZero
deriving DecidableEq, Repr

/-- The machine right after the host creates it (R34): SP 0xF4, IS, pc and FL 0, nothing printed or reported, Idle.
R0..R5 and the memory contents are open in the spec; see `Config.resetGpr` and `Config.unlistedByte`. -/
def State.reset : State where
  x := #v[Config.resetGpr, Config.resetGpr, Config.resetGpr, Config.resetGpr, Config.resetGpr, Config.resetGpr,
    0x00#8, Config.initialSp]
  pc := Config.loadAddr
  fl := 0x00#8
  mem := []
  run := .idle
  out := []
  reports := []

end Sys2Proof.Machine
end

