-- ==== Sys2Proof/Machine/Ops.lean ====
section
/-! DEFINITION. The named operations over memory and registers, the stack manager, the output port, raising an
exception, interrupt entry and the PC advance. -/

namespace Sys2Proof.Machine

/-- The byte at address `a`: its entry's, or what an unlisted address reads as. -/
def Memory.read : Memory → Byte → Byte
  | [], _ => Config.unlistedByte
  | (k, v) :: rest, a => if k = a.toNat then v else Memory.read rest a

/-- The memory without any entry for `a`. -/
def Memory.erase : Memory → Byte → Memory
  | [], _ => []
  | (k, v) :: rest, a => if k = a.toNat then Memory.erase rest a else (k, v) :: Memory.erase rest a

/-- The memory with the entry `(a, v)` put in its place by address, replacing one that stands there. -/
def Memory.insert : Memory → Byte → Byte → Memory
  | [], a, v => [(a.toNat, v)]
  | (k, w) :: rest, a, v =>
    if a.toNat < k then (a.toNat, v) :: (k, w) :: rest
    else if k = a.toNat then (a.toNat, v) :: rest
    else (k, w) :: Memory.insert rest a v

/-- The memory after `v` is written at `a`; writing what an unlisted address reads as removes the entry. -/
def Memory.write (m : Memory) (a v : Byte) : Memory :=
  if v = Config.unlistedByte then Memory.erase m a else Memory.insert m a v

/-- The canonical form from address `lo` up: addresses strictly rising and below 256, no entry equal to what an
unlisted address reads as. -/
def Memory.wfFrom (lo : Nat) : Memory → Bool
  | [] => true
  | (k, v) :: rest => decide (lo ≤ k) && decide (k < 256) && decide (v ≠ Config.unlistedByte) && Memory.wfFrom (k + 1) rest

/-- The canonical form of memory. -/
def Memory.wf (m : Memory) : Bool := Memory.wfFrom 0 m

/-- The canonical memory that reads `f a` at every address `a` up from `lo`, `n` addresses long. -/
def Memory.ofFunFrom (f : Byte → Byte) : (lo n : Nat) → Memory
  | _, 0 => []
  | lo, n + 1 =>
    if f (BitVec.ofNat 8 lo) = Config.unlistedByte then Memory.ofFunFrom f (lo + 1) n
    else (lo, f (BitVec.ofNat 8 lo)) :: Memory.ofFunFrom f (lo + 1) n

/-- The canonical memory that reads `f a` at every address `a`. -/
def Memory.ofFun (f : Byte → Byte) : Memory := Memory.ofFunFrom f 0 256

/-- The reset state for any value of the two open parameters `RESET_GPR` and `MEM_INIT` (10_state.md R34, D8, D9). -/
def State.resetWith (gpr : Fin 6 → Byte) (memInit : Byte → Byte) : State where
  x := #v[gpr 0, gpr 1, gpr 2, gpr 3, gpr 4, gpr 5, 0x00#8, Config.initialSp]
  pc := Config.loadAddr
  fl := 0x00#8
  mem := Memory.ofFun memInit
  run := .idle
  out := []
  reports := []

/-- Read general register `r` (R9). -/
def State.reg (s : State) (r : Reg) : Byte := s.x.get r

/-- Write general register `r` (R9). -/
def State.setReg (s : State) (r : Reg) (v : Byte) : State := { s with x := s.x.set r.val v r.isLt }

/-- `MemRead(a, 1)`: the byte at `a`; no side effect (R10, R42). -/
def State.read (s : State) (a : Byte) : Byte := s.mem.read a

/-- `MemWrite(a, 1, v)` (R10). -/
def State.write (s : State) (a v : Byte) : State := { s with mem := s.mem.write a v }

/-- `pc <- target` (R9). -/
def State.setPc (s : State) (target : Byte) : State := { s with pc := target }

/-- `FL <- v` (R23). -/
def State.setFl (s : State) (v : Byte) : State := { s with fl := v }

/-- `run <- r` (R30). -/
def State.setRun (s : State) (r : RunState) : State := { s with run := r }

/-- The address the next push writes: SP after its decrement, modulo 256 (43_stack.md R84). -/
def State.pushAddr (s : State) : Byte := s.reg Reg.sp - 1#8

/-- `PushValue(v)`: decrement SP, then write `v` at the new SP (43_stack.md R84). -/
def State.pushValue (s : State) (v : Byte) : State := (s.setReg Reg.sp s.pushAddr).write s.pushAddr v

/-- The byte `PopValue()` returns: memory at SP before its increment (43_stack.md R85). -/
def State.popByte (s : State) : Byte := s.read (s.reg Reg.sp)

/-- The state after `PopValue()`: SP incremented modulo 256, memory unchanged (43_stack.md R85). -/
def State.popSp (s : State) : State := s.setReg Reg.sp (s.reg Reg.sp + 1#8)

/-- `emit(kind, v)`: append to the output stream (00_scope.md R12, 45_output_halt.md R96). -/
def State.emit (s : State) (kind : OutKind) (v : Byte) : State := { s with out := s.out ++ [⟨kind, v⟩] }

/-- The record an exception sends: `(1, op)` or `(2, op, b)` (60_exceptions.md R103). -/
def Exc.report : Exc → ErrorReport
  | .invalidOpcode op => ⟨1, [op]⟩
  | .badRegister op b => ⟨2, [op, b]⟩

/-- TAKING AN EXCEPTION, `raise E(info)`: the run halts with the reason, one error report is sent, and nothing else
changes; `pc` stays at the offending instruction (00_scope.md R11, 60_exceptions.md R101, R102). There is no return
from one: nothing leaves Halted (R30). -/
def State.raise (s : State) (e : Exc) : State :=
  { s with run := .halted (.raised e), reports := s.reports ++ [e.report] }

/-- An interrupt is pending exactly when the whole byte IS is nonzero (60_exceptions.md R106). -/
def State.interruptPending (s : State) : Bool := s.reg Reg.is != 0#8

/-- One turn of interrupt entry's loop: register `i` is read just before its own push (60_exceptions.md R110). -/
def State.pushReg (s : State) (i : Reg) : State := s.pushValue (s.reg i)

/-- The nine pushes of interrupt entry: `pc`, then R0..R7 in ascending order (60_exceptions.md R110). -/
def State.pushFrame (s : State) : State :=
  (((((((((s.pushValue s.pc).pushReg 0).pushReg 1).pushReg 2).pushReg 3).pushReg 4).pushReg 5).pushReg 6).pushReg 7)

/-- TAKING AN INTERRUPT, `InterruptEntry()`: push the frame, clear IS, and jump through the vector, which is read
after the pushes; FL, the run state and the outputs stay (60_exceptions.md R110, R112, R113). The return from one is
ordinary POPs and a RET (R116). -/
def State.interruptEntry (s : State) : State :=
  let t := s.pushFrame.setReg Reg.is 0#8
  t.setPc (t.read Config.vectorAddr)

/-- Step 1 of the cycle: enter the interrupt when one is pending (60_exceptions.md R109). -/
def State.interruptCheck (s : State) : State := if s.interruptPending then s.interruptEntry else s

/-- Step 5 of the cycle, for the instruction with opcode `op` whose handler has run: the PC advance, which the
control-transfer set is exempt from (40_cycle.md R69, R70). -/
def State.sequencePc (s : State) (op : Byte) : State :=
  if isControlTransfer op then s else s.setPc (s.pc + 1#8 + operandCount op)

end Sys2Proof.Machine
end

