-- ==== Sys2Proof/Machine/Flags.lean ====
section
/-! DEFINITION. The flags register's fields and the comparison that writes it (10_state.md R24, 42_alu.md R82). The
bit positions are the spec's own choice (D4), invisible to programs. -/

namespace Sys2Proof.Machine

/-- EQUAL, bit 0 (R24). -/
def State.flagE (s : State) : Bool := s.fl.getLsbD 0

/-- GREATER, bit 1 (R24). -/
def State.flagG (s : State) : Bool := s.fl.getLsbD 1

/-- LESS, bit 2 (R24). -/
def State.flagL (s : State) : Bool := s.fl.getLsbD 2

/-- `compare(a, b)`: all of FL, exactly one flag set, on unsigned bytes (R78, R82). -/
def compareFlags (a b : Byte) : Byte :=
  if a = b then 0x01#8 else if b.toNat < a.toNat then 0x02#8 else 0x04#8

end Sys2Proof.Machine
end

