-- ==== Sys2Proof/Machine/Alu.lean ====
section
/-! DEFINITION. ADD, MUL and CMP (42_alu.md). -/

namespace Sys2Proof.Machine

/-- `add(a, b) = (a + b) mod 256`, on exact sums (R79). -/
def aluAdd (a b : Byte) : Byte := BitVec.ofNat 8 (a.toNat + b.toNat)

/-- `multiply(a, b) = (a * b) mod 256`, on exact unsigned products (R79). -/
def aluMul (a b : Byte) : Byte := BitVec.ofNat 8 (a.toNat * b.toNat)

/-- ADD (R80). -/
def execAdd (a b : Reg) (s : State) : Host.Outcome State Fault Refusal :=
  .next ((s.setReg a (aluAdd (s.reg a) (s.reg b))).sequencePc 0xA8#8)

/-- MUL (R81). -/
def execMul (a b : Reg) (s : State) : Host.Outcome State Fault Refusal :=
  .next ((s.setReg a (aluMul (s.reg a) (s.reg b))).sequencePc 0xAA#8)

/-- CMP (R82). -/
def execCmp (a b : Reg) (s : State) : Host.Outcome State Fault Refusal :=
  .next ((s.setFl (compareFlags (s.reg a) (s.reg b))).sequencePc 0xA0#8)

end Sys2Proof.Machine
end

