-- ==== Sys2Proof/Machine/Operands.lean ====
section
/-! DEFINITION. The operand bytes of the cycle: the fetch (40_cycle.md R66), and where an operand's address or
fall-through address lies. -/

namespace Sys2Proof.Machine

/-- The three bytes every fetch reads (10_state.md R32). -/
structure Fetched where
  op : Byte
  b1 : Byte
  b2 : Byte
deriving DecidableEq, Repr

/-- The fetch: `pc`, `pc + 1` and `pc + 2`, modulo 256, whatever the instruction's length (R66). -/
def State.fetch (s : State) : Fetched := ⟨s.read s.pc, s.read (s.pc + 1#8), s.read (s.pc + 2#8)⟩

/-- The address after a two-byte control transfer at `pc`: CALL's return address and a conditional jump's
fall-through, modulo 256 (10_state.md R21). -/
def State.afterTwoBytes (s : State) : Byte := s.pc + 2#8

end Sys2Proof.Machine
end

