-- ==== Sys2Proof/Machine/Control.lean ====
section
/-! DEFINITION. JMP, JEQ, JNE, JLT, JGT, CALL and RET (44_control.md). Their opcodes are in the control-transfer set,
so step 5 leaves the `pc` the handler has set (40_cycle.md R70). -/

namespace Sys2Proof.Machine

/-- The handler every conditional jump shares: to the register's value, or to the address after the instruction. -/
def State.jumpIf (s : State) (taken : Bool) (r : Reg) : State :=
  if taken then s.setPc (s.reg r) else s.setPc s.afterTwoBytes

/-- JMP (R89). -/
def execJmp (r : Reg) (s : State) : Host.Outcome State Fault Refusal :=
  .next ((s.setPc (s.reg r)).sequencePc 0x50#8)

/-- JEQ (R90). -/
def execJeq (r : Reg) (s : State) : Host.Outcome State Fault Refusal :=
  .next ((s.jumpIf s.flagE r).sequencePc 0x51#8)

/-- JNE (R91). -/
def execJne (r : Reg) (s : State) : Host.Outcome State Fault Refusal :=
  .next ((s.jumpIf (!s.flagE) r).sequencePc 0x52#8)

/-- JLT (R92). -/
def execJlt (r : Reg) (s : State) : Host.Outcome State Fault Refusal :=
  .next ((s.jumpIf s.flagL r).sequencePc 0x53#8)

/-- JGT (R93). -/
def execJgt (r : Reg) (s : State) : Host.Outcome State Fault Refusal :=
  .next ((s.jumpIf s.flagG r).sequencePc 0x54#8)

/-- CALL: the target is read after the push, so CALL R7 jumps to the new SP (R94, D12). -/
def execCall (r : Reg) (s : State) : Host.Outcome State Fault Refusal :=
  let t := s.pushValue s.afterTwoBytes
  .next ((t.setPc (t.reg r)).sequencePc 0x48#8)

/-- RET (R95). -/
def execRet (s : State) : Host.Outcome State Fault Refusal :=
  .next ((s.popSp.setPc s.popByte).sequencePc 0x09#8)

end Sys2Proof.Machine
end

