-- ==== Sys2Proof/Machine/Output.lean ====
section
/-! DEFINITION. PRN, PRA and HLT (45_output_halt.md). -/

namespace Sys2Proof.Machine

/-- PRN (R97). -/
def execPrn (r : Reg) (s : State) : Host.Outcome State Fault Refusal :=
  .next ((s.emit .dec (s.reg r)).sequencePc 0x43#8)

/-- PRA (R98). -/
def execPra (r : Reg) (s : State) : Host.Outcome State Fault Refusal :=
  .next ((s.emit .chr (s.reg r)).sequencePc 0x42#8)

/-- HLT: the clock stops, and the halted cycle still advances `pc` by 1 (R99, 40_cycle.md R71). -/
def execHlt (s : State) : Host.Outcome State Fault Refusal :=
  .next ((s.setRun (.halted .hlt)).sequencePc 0x01#8)

end Sys2Proof.Machine
end

