-- ==== Sys2Proof/Machine/Stack.lean ====
section
/-! DEFINITION. PUSH and POP (43_stack.md). -/

namespace Sys2Proof.Machine

/-- PUSH: the register is read before SP changes, so PUSH R7 stores the old SP (R86, D29). -/
def execPush (r : Reg) (s : State) : Host.Outcome State Fault Refusal :=
  .next ((s.pushValue (s.reg r)).sequencePc 0x4D#8)

/-- POP: the register is written after SP's increment, so POP R7 leaves SP equal to the popped byte (R87, D29). -/
def execPop (r : Reg) (s : State) : Host.Outcome State Fault Refusal :=
  .next ((s.popSp.setReg r s.popByte).sequencePc 0x4C#8)

end Sys2Proof.Machine
end

