-- ==== Sys2Proof/Machine/Transfer.lean ====
section
/-! DEFINITION. LDI and ST (41_transfer.md). A meaning is the handler (step 4 of the cycle) followed by step 5 for the
instruction's own opcode (40_cycle.md R64). -/

namespace Sys2Proof.Machine

/-- LDI (R76). -/
def execLdi (r : Reg) (imm : Byte) (s : State) : Host.Outcome State Fault Refusal :=
  .next ((s.setReg r imm).sequencePc 0x99#8)

/-- ST (R77). -/
def execSt (a b : Reg) (s : State) : Host.Outcome State Fault Refusal :=
  .next ((s.write (s.reg a) (s.reg b)).sequencePc 0x9A#8)

end Sys2Proof.Machine
end

