-- ==== Sys2Proof/Machine/Cycle.lean ====
section
/-! DEFINITION. The cycle (40_cycle.md R64): interrupt check, fetch, decode, and the instruction or the exception. -/

namespace Sys2Proof.Machine

/-- Steps 2 to 5 of the cycle, after the interrupt check (R64, R66, R67). -/
def State.fetchAndDispatch (s : State) : Host.Outcome State Fault Refusal :=
  match decode s.fetch.op s.fetch.b1 s.fetch.b2 with
  | .instr i => exec i s
  | .invalid op => .next (s.raise (.invalidOpcode op))
  | .badReg op b => .next (s.raise (.badRegister op b))

/-- One cycle, which requires `run = Running` (R64). The interrupt check comes first, and the cycle goes on with the
`pc` it leaves (R65). -/
def State.cycle (s : State) : Host.Outcome State Fault Refusal := s.interruptCheck.fetchAndDispatch

/-- One clock tick. The core has no step unless `run = Running` (R74, R75; log entry 5). -/
def State.tick (s : State) : Host.Outcome State Fault Refusal :=
  match s.run with
  | .running => s.cycle
  | .idle => .fault .idle
  | .halted _ => .fault .halted

/-- The state with the instruction of bits `w` placed at `pc`, and all else that it takes for the very next tick to
run it: the clock started and no interrupt pending (log entry 4). It stands for the host's load and `start()`. -/
def State.placeInstr (s : State) (nbits w : Nat) : State :=
  let placed := ((s.write s.pc (tableByte nbits w 0)).write (s.pc + 1#8) (tableByte nbits w 1)).write (s.pc + 2#8)
    (tableByte nbits w 2)
  (placed.setReg Reg.is 0#8).setRun .running

end Sys2Proof.Machine
end

