-- ==== Sys2Proof/Machine/Step.lean ====
section
/-! DEFINITION. One step of the machine, and placing an instruction where the next step fetches. -/

namespace Sys2Proof.Machine

/-- One step: one clock tick (40_cycle.md R64, R75). -/
def step (s : State) : Host.Outcome State Fault Refusal := s.tick

/-- The state whose very next step fetches and runs the instruction with these bits (log entry 4). -/
def State.withFetchWord (s : State) (nbits w : Nat) : State := s.placeInstr nbits w

end Sys2Proof.Machine
end

