-- ==== Sys2Proof/Machine/Environment.lean ====
section
/-! DEFINITION. What the host and the external stimulus may do between cycles, and when (70_reset_and_hazards.md R128,
60_exceptions.md R107). An action that is not allowed in the state is refused by name (log entry 10). -/

namespace Sys2Proof.Machine

/-- The bytes of `image` written from address `a` upwards, one after the other. -/
def State.writeBytes (s : State) (a : Byte) : List Byte → State
  | [] => s
  | v :: rest => (s.write a v).writeBytes (a + 1#8) rest

/-- Load a program: its bytes at 0x00 upwards, while Idle (R128, R126). -/
def hostLoad (image : List Byte) (s : State) : Host.Outcome State Fault Refusal :=
  if s.run ≠ .idle then .refused .memoryNotIdle
  else if 256 < image.length then .refused .imageTooLong
  else .next (s.writeBytes Config.loadAddr image)

/-- `poke(address, value)`, while Idle (R128). -/
def hostPoke (a v : Byte) (s : State) : Host.Outcome State Fault Refusal :=
  if s.run ≠ .idle then .refused .memoryNotIdle else .next (s.write a v)

/-- `start()`: cycles begin, from Idle only (R128, D13). -/
def hostStart (s : State) : Host.Outcome State Fault Refusal :=
  if s.run ≠ .idle then .refused .startNotIdle else .next (s.setRun .running)

/-- `stop()`, while Running or Idle (R128, D22). -/
def hostStop (s : State) : Host.Outcome State Fault Refusal :=
  match s.run with
  | .idle => .next (s.setRun (.halted .externalStop))
  | .running => .next (s.setRun (.halted .externalStop))
  | .halted _ => .refused .stopAfterHalt

/-- `Stimulus(v)`, in any run state: `x[6] <- v`, replacing what R6 held (R107, D27). -/
def stimulus (v : Byte) (s : State) : Host.Outcome State Fault Refusal :=
  if v = 0#8 then .refused .stimulusZero else .next (s.setReg Reg.is v)

/-- One action of the environment. -/
inductive EnvAction where
  | load (image : List Byte)
  | poke (a v : Byte)
  | start
  | stop
  | stimulus (v : Byte)
deriving DecidableEq, Repr

/-- The effect of an action of the environment between two cycles. -/
def envStep : EnvAction → State → Host.Outcome State Fault Refusal
  | .load image, s => hostLoad image s
  | .poke a v, s => hostPoke a v s
  | .start, s => hostStart s
  | .stop, s => hostStop s
  | .stimulus v, s => stimulus v s

/-- Reading the state, which changes nothing, is the host's while Idle or Halted (R128). -/
def hostRead (s : State) : Option State :=
  match s.run with
  | .idle => some s
  | .halted _ => some s
  | .running => none

/-- What a halted run shows: the final registers, `pc`, FL and memory, the reason, the output and the error reports
(R129). -/
structure Observation where
  x : Vector Byte 8
  pc : Byte
  fl : Byte
  mem : Memory
  reason : HaltReason
  out : List OutEvent
  reports : List ErrorReport
deriving DecidableEq, Repr

/-- The observation of a run that has ended; none while it has not (R129). -/
def State.observation (s : State) : Option Observation :=
  match s.run with
  | .halted r => some ⟨s.x, s.pc, s.fl, s.mem, r, s.out, s.reports⟩
  | .idle => none
  | .running => none

end Sys2Proof.Machine
end

