-- ==== Sys2Proof/Machine/Schedule.lean ====
section
/-! DEFINITION. Runs with an environment: clock ticks and environment actions in an order the caller gives. Any number
of stimuli may come between two cycles (60_exceptions.md R107), and a cycle is atomic (40_cycle.md R72), so a run is a
list of these events (log entry 9). -/

namespace Sys2Proof.Machine

/-- One event of a run. -/
inductive Event where
  /-- A clock tick: one `step`. -/
  | tick
  /-- An action of the environment between cycles. -/
  | env (a : EnvAction)
deriving DecidableEq, Repr

/-- The effect of one event. -/
def eventStep : Event → State → Host.Outcome State Fault Refusal
  | .tick, s => step s
  | .env a, s => envStep a s

/-- A run along a schedule of events, stopping at the first fault or refusal. -/
def runSchedule : List Event → State → Host.Outcome State Fault Refusal
  | [], s => .next s
  | e :: rest, s =>
    match eventStep e s with
    | .next t => runSchedule rest t
    | .fault f => .fault f
    | .refused r => .refused r

end Sys2Proof.Machine
end

