-- ==== Sys2Proof/Machine/Execution.lean ====
section
/-! DEFINITION. Infinite executions and the fairness of the clock. The clock is the step relation alone, with one
assumption: while the machine is running and no `stop()` is made, another cycle eventually runs (40_cycle.md R74,
92_eei_decisions.md D24, 93_implementation_defined.md I7). An execution is a sequence of instants, and the sequence of
its states; at an instant one event happens, or nothing, for as long as the clock and the environment take (log entry
12). -/

namespace Sys2Proof.Machine

/-- What happens at one instant: an event, or nothing at all. -/
def instantStep : Option Event → State → Host.Outcome State Fault Refusal
  | none, s => .next s
  | some e, s => eventStep e s

/-- The states `st` are those of an execution with the events `ev`: every event has its effect. A tick has one only
while Running (R74, R75), a host action only in the run states R128 allows. -/
def IsExecution (ev : Nat → Option Event) (st : Nat → State) : Prop :=
  ∀ n, instantStep (ev n) (st n) = .next (st (n + 1))

/-- The fairness of the clock: from every instant at which the machine is running, a tick or a `stop()` follows
(R74, D24). -/
def FairClock (ev : Nat → Option Event) (st : Nat → State) : Prop :=
  ∀ n, (st n).run = .running → ∃ m, n ≤ m ∧ (ev m = some .tick ∨ ev m = some (.env .stop))

/-- No instant is halted: the execution has no final state (70_reset_and_hazards.md R129). -/
def NeverHalts (st : Nat → State) : Prop := ∀ (n : Nat) (r : HaltReason), (st n).run ≠ .halted r

end Sys2Proof.Machine
end

