-- ==== Sys2Proof/Safety.lean ====
section
/-! DEFINITION. The terms in which claims about the machine are made: the invariant of a state, when an instruction is
about to run, and which registers and which byte of memory an instruction may write. -/

namespace Sys2Proof.Machine

/-- FL holds one of its four legal values (10_state.md R24, R27). -/
def legalFl (fl : Byte) : Bool := fl == 0x00#8 || fl == 0x01#8 || fl == 0x02#8 || fl == 0x04#8

/-- The error reports a run has sent when it is in this run state: one after a fatal exception, none otherwise
(60_exceptions.md R103). -/
def reportsOf : RunState → List ErrorReport
  | .idle => []
  | .running => []
  | .halted .hlt => []
  | .halted (.raised e) => [e.report]
  | .halted .externalStop => []

/-- The invariant: memory in its canonical form, FL legal, and the reports those of the run state. -/
abbrev State.Inv (s : State) : Prop :=
  s.mem.wf = true ∧ legalFl s.fl = true ∧ s.reports = reportsOf s.run

/-- The next state of an outcome, where it is one. -/
def nextState : Host.Outcome State Fault Refusal → Option State
  | .next t => some t
  | .fault _ => none
  | .refused _ => none

/-- The clock is running and no interrupt is pending: the next step runs the instruction at `pc`. -/
abbrev State.Ready (s : State) : Prop := s.run = .running ∧ s.reg Reg.is = 0#8

/-- The three bytes at `pc`. -/
abbrev State.Holds (s : State) (op b1 b2 : Byte) : Prop :=
  s.read s.pc = op ∧ s.read (s.pc + 1#8) = b1 ∧ s.read (s.pc + 2#8) = b2

/-- Every register but those listed is as before. -/
abbrev SameRegsBut (dest : List Reg) (s t : State) : Prop := ∀ q : Reg, q ∉ dest → t.reg q = s.reg q

/-- Every byte of memory reads as before. -/
abbrev SameMemory (s t : State) : Prop := ∀ a : Byte, t.read a = s.read a

/-- Every byte of memory but the one at `a` reads as before. -/
abbrev SameMemoryBut (a : Byte) (s t : State) : Prop := ∀ c : Byte, c ≠ a → t.read c = s.read c

/-- The run state, the output and the error reports are as before. -/
abbrev SameOutputs (s t : State) : Prop := t.run = s.run ∧ t.out = s.out ∧ t.reports = s.reports

/-- Wherever these bytes stand at `pc` of a running core with no interrupt pending, the next step is instruction `i`. -/
def RunsAs (op b1 b2 : Byte) (i : Instr) : Prop :=
  ∀ s : State, s.Ready → s.Holds op b1 b2 → step s = exec i s

/-- Wherever these bytes stand at `pc` of a running core with no interrupt pending, the next step halts the run with
`BadRegister(op, b)`, sends the report `(2, op, b)` and changes nothing else. -/
def RaisesBadRegister (op b1 b2 b : Byte) : Prop :=
  ∀ s : State, s.Ready → s.Holds op b1 b2 →
    ∃ t, step s = .next t ∧ t.run = .halted (.raised (.badRegister op b)) ∧ t.reports = s.reports ++ [⟨2, [op, b]⟩] ∧
      t.pc = s.pc ∧ t.fl = s.fl ∧ t.out = s.out ∧ SameRegsBut [] s t ∧ SameMemory s t

/-- The nine addresses of the frame an interrupt entered with SP = `sp` leaves: `sp - 1` down to `sp - 9`, modulo 256
(60_exceptions.md R111). -/
abbrev InFrame (sp a : Byte) : Prop := 1 ≤ (sp - a).toNat ∧ (sp - a).toNat ≤ 9

/-- The 17 valid opcodes (30_encoding.md R58). -/
def validOpcodes : List Byte :=
  [0x99#8, 0xA8#8, 0xAA#8, 0xA0#8, 0x9A#8, 0x4D#8, 0x4C#8, 0x48#8, 0x09#8, 0x50#8, 0x51#8, 0x52#8, 0x53#8, 0x54#8,
   0x43#8, 0x42#8, 0x01#8]

/-- The control-transfer set (30_encoding.md R62). -/
def controlTransferOpcodes : List Byte := [0x48#8, 0x50#8, 0x09#8, 0x51#8, 0x54#8, 0x53#8, 0x52#8]

/-- The registers an instruction may write: its destination, and SP where it uses the stack (10_state.md R17). -/
def destRegs : Instr → List Reg
  | .ldi r _ => [r]
  | .add a _ => [a]
  | .mul a _ => [a]
  | .cmp _ _ => []
  | .st _ _ => []
  | .push _ => [Reg.sp]
  | .pop r => [r, Reg.sp]
  | .call _ => [Reg.sp]
  | .ret => [Reg.sp]
  | .jmp _ => []
  | .jeq _ => []
  | .jne _ => []
  | .jlt _ => []
  | .jgt _ => []
  | .prn _ => []
  | .pra _ => []
  | .hlt => []

/-- The address an instruction stores to, by the expressions its meaning uses; none for one that stores nothing
(20_memory.md R37). -/
def storeAddr : Instr → State → Option Byte
  | .st a _, s => some (s.reg a)
  | .push _, s => some s.pushAddr
  | .call _, s => some s.pushAddr
  | .ldi _ _, _ => none
  | .add _ _, _ => none
  | .mul _ _, _ => none
  | .cmp _ _, _ => none
  | .pop _, _ => none
  | .ret, _ => none
  | .jmp _, _ => none
  | .jeq _, _ => none
  | .jne _, _ => none
  | .jlt _, _ => none
  | .jgt _, _ => none
  | .prn _, _ => none
  | .pra _, _ => none
  | .hlt, _ => none

/-- The conditional jumps, the readers of FL (10_state.md R26). -/
def isConditionalJump : Instr → Bool
  | .jeq _ => true
  | .jne _ => true
  | .jlt _ => true
  | .jgt _ => true
  | .ldi _ _ => false
  | .add _ _ => false
  | .mul _ _ => false
  | .cmp _ _ => false
  | .st _ _ => false
  | .push _ => false
  | .pop _ => false
  | .call _ => false
  | .ret => false
  | .jmp _ => false
  | .prn _ => false
  | .pra _ => false
  | .hlt => false

/-- The meanings of a list of instructions one after the other, as the handlers of consecutive cycles. -/
def execList : List Instr → State → Host.Outcome State Fault Refusal
  | [], s => .next s
  | i :: rest, s =>
    match exec i s with
    | .next t => execList rest t
    | .fault f => .fault f
    | .refused r => .refused r

/-- The sequence of R116 that restores the interrupted state from a frame on top of the stack. -/
def returnSequence : List Instr :=
  [.pop 7, .pop 5, .pop 5, .pop 4, .pop 3, .pop 2, .pop 1, .pop 0, .ret]

end Sys2Proof.Machine
end

