-- ==== Sys2Proof/Certificates/Slice0/Obligations.lean ====
section
/-! DEFINITION. The statements for the provers. Each docstring names the rule it formalises; OBLIGATIONS.json lists
them. Where a clause rests on a decision the spec marks as its own (92_eei_decisions.md) or on a log entry, the
docstring says so. -/

open Sys2Proof Sys2Proof.Machine

/-- Decode and encode agree on every instruction, at every register and every immediate (R54, R58, R61). -/
def Obligations.DecodeOfEncodeIsTheInstruction : Prop :=
  ∀ (i : Instr) (u v : Byte),
    decode ((encode i ++ [u, v]).getD 0 0) ((encode i ++ [u, v]).getD 1 0) ((encode i ++ [u, v]).getD 2 0) = .instr i

/-- The other direction: what decodes to an instruction is its encoding, of the length the opcode's two high bits give (R53). -/
def Obligations.EncodeOfDecodeGivesTheBytes : Prop :=
  ∀ (op b1 b2 : Byte) (i : Instr), decode op b1 b2 = .instr i →
    i.opcode = op ∧ encode i = [op, b1, b2].take (1 + (op >>> 6).toNat)

/-- The decoder accepts exactly the bytes the format tables allow (R54, R55, R58). -/
def Obligations.DecodableBytesAreTheWellFormedOnes : Prop :=
  ∀ op b1 b2 : Byte, wellFormed op b1 b2 = true ↔ ∃ i, decode op b1 b2 = .instr i

/-- Every opcode byte outside the map is invalid: 239 of 256 (R59; the count is the spec's own derivation). -/
def Obligations.InvalidOpcodesAreTheOther239 : Prop :=
  (∀ op b1 b2 : Byte, decode op b1 b2 = .invalid op ↔ op ∉ validOpcodes) ∧
  (∀ op b1 b2 o : Byte, decode op b1 b2 = .invalid o → o = op) ∧
  ((List.range 256).filter (fun n => decode (BitVec.ofNat 8 n) 0 0 = .invalid (BitVec.ofNat 8 n))).length = 239 ∧
  (∀ op b1 b2 : Byte, op >>> 6 = 3 → decode op b1 b2 = .invalid op)

/-- What a BadReg answer names; the exception is the spec's own decision D10 (R55, R61). -/
def Obligations.BadRegisterNamesTheFirstOffendingByte : Prop :=
  ∀ op b1 b2 o b : Byte, decode op b1 b2 = .badReg o b →
    o = op ∧ op ∈ validOpcodes ∧ 7 < b.toNat ∧
      ((b = b1 ∧ 7 < b1.toNat ∧ formatOf op ≠ some .f0) ∨ (b1.toNat ≤ 7 ∧ b = b2 ∧ formatOf op = some .f2rr))

/-- Bytes beyond the instruction's length are not operands: neither the decoder nor the instruction a step runs depends on them (R57). -/
def Obligations.BytesBeyondTheLengthAreIgnored : Prop :=
  (∀ op b1 b2 c1 c2 : Byte, formatOf op = some .f0 → decode op b1 b2 = decode op c1 c2) ∧
  (∀ op b1 b2 c2 : Byte, formatOf op = some .f1r → decode op b1 b2 = decode op b1 c2) ∧
  (∀ (op b1 b2 : Byte) (s : State) (i : Instr), formatOf op = some .f0 → decode op 0 0 = .instr i →
    s.Ready → s.Holds op b1 b2 → step s = exec i s) ∧
  (∀ (op b1 b2 : Byte) (s : State) (i : Instr), formatOf op = some .f1r → decode op b1 0 = .instr i →
    s.Ready → s.Holds op b1 b2 → step s = exec i s)

/-- Decoding is right on words the spec writes out (R63, the vectors of 95_test_vectors.md section 2.1 and its programs). -/
def Obligations.WordsOfTheEncodingTablesDecode : Prop :=
  decode 0x99#8 0x07#8 0xFF#8 = .instr (.ldi 7 255) ∧ decode 0x9A#8 0x00#8 0x01#8 = .instr (.st 0 1) ∧
  decode 0xA8#8 0x00#8 0x01#8 = .instr (.add 0 1) ∧ decode 0xAA#8 0x00#8 0x01#8 = .instr (.mul 0 1) ∧
  decode 0xA0#8 0x00#8 0x02#8 = .instr (.cmp 0 2) ∧ decode 0x4D#8 0x03#8 0xFF#8 = .instr (.push 3) ∧
  decode 0x4C#8 0x05#8 0x00#8 = .instr (.pop 5) ∧ decode 0x48#8 0x02#8 0x00#8 = .instr (.call 2) ∧
  decode 0x09#8 0xFF#8 0xFF#8 = .instr .ret ∧ decode 0x52#8 0x03#8 0x00#8 = .instr (.jne 3) ∧
  decode 0x42#8 0x03#8 0x00#8 = .instr (.pra 3) ∧ decode 0x01#8 0x00#8 0x00#8 = .instr .hlt ∧
  decode 0x99#8 0x08#8 0x00#8 = .badReg 0x99#8 0x08#8 ∧ decode 0xA8#8 0x09#8 0x0A#8 = .badReg 0xA8#8 0x09#8 ∧
  decode 0xA8#8 0x00#8 0x08#8 = .badReg 0xA8#8 0x08#8 ∧ decode 0x00#8 0x00#8 0x00#8 = .invalid 0x00#8 ∧
  decode 0x82#8 0x00#8 0x00#8 = .invalid 0x82#8

/-- A step of a running core with no interrupt pending is exec of the decoded instruction (R64). exec holds steps 4 and 5 of the cycle (log entry 8). -/
def Obligations.StepRunsTheDecodedInstruction : Prop :=
  ∀ (s : State) (op b1 b2 : Byte) (i : Instr), s.Ready → s.Holds op b1 b2 → decode op b1 b2 = .instr i →
    step s = exec i s

/-- Step 1 of the cycle: entry when IS is nonzero, then the fetch at the new pc; nothing when it is zero (R64, R65, R109). The exceptions of the second half (R67) rest on the spec's own decisions D10 and D11 (log entry 3). -/
def Obligations.PendingInterruptIsEnteredBeforeTheFetch : Prop :=
  (∀ s : State, s.run = .running → s.reg Reg.is ≠ 0#8 →
    s.interruptEntry.run = .running ∧ s.interruptEntry.reg Reg.is = 0#8 ∧ step s = step s.interruptEntry) ∧
  (∀ (s : State) (op b1 b2 : Byte), s.run = .running → s.reg Reg.is = 0#8 → s.Holds op b1 b2 →
    (∀ i, decode op b1 b2 = .instr i → step s = exec i s) ∧
    (∀ o, decode op b1 b2 = .invalid o → step s = .next (s.raise (.invalidOpcode o))) ∧
    (∀ o b, decode op b1 b2 = .badReg o b → step s = .next (s.raise (.badRegister o b))))

/-- Taking InvalidOpcode (R101, R103); pc staying is the spec's own decision D11, and the last clause, that the absent step is the fault halted, the model's choice (log entry 5). -/
def Obligations.InvalidOpcodeHaltsTheRun : Prop :=
  ∀ (s : State) (op b1 b2 : Byte), s.Ready → s.Holds op b1 b2 → op ∉ validOpcodes →
    ∃ t, step s = .next t ∧ t.run = .halted (.raised (.invalidOpcode op)) ∧ t.reports = s.reports ++ [⟨1, [op]⟩] ∧
      t.pc = s.pc ∧ t.fl = s.fl ∧ t.out = s.out ∧ SameRegsBut [] s t ∧ SameMemory s t ∧ step t = .fault .halted

/-- Taking BadRegister, for every format that has a register operand (R102, R103); the exception is the spec's own decision D10. -/
def Obligations.BadRegisterHaltsTheRun : Prop :=
  (∀ op b1 b2 : Byte, (formatOf op = some .f1r ∨ formatOf op = some .f2rr ∨ formatOf op = some .f2ri) →
    7 < b1.toNat → RaisesBadRegister op b1 b2 b1) ∧
  (∀ op b1 b2 : Byte, formatOf op = some .f2rr → b1.toNat ≤ 7 → 7 < b2.toNat → RaisesBadRegister op b1 b2 b2)

/-- State written earlier in the same cycle stands (R104, a derivation of the spec); the interrupt comes before the fetch (R118). -/
def Obligations.ExceptionInTheEntryCycleKeepsTheEntry : Prop :=
  ∀ (s : State) (op b1 b2 : Byte) (e : Exc), s.run = .running → s.reg Reg.is ≠ 0#8 →
    s.interruptEntry.Holds op b1 b2 →
    (decode op b1 b2 = .invalid op ∧ e = .invalidOpcode op ∨
      ∃ b, decode op b1 b2 = .badReg op b ∧ e = .badRegister op b) →
    ∃ t, step s = .next t ∧ t.run = .halted (.raised e) ∧ t.reports = s.reports ++ [e.report] ∧
      t.reg Reg.is = 0#8 ∧ t.reg Reg.sp = s.reg Reg.sp - 9#8 ∧ SameRegsBut [] s.interruptEntry t ∧
      SameMemory s.interruptEntry t ∧ t.pc = s.interruptEntry.pc ∧ t.fl = s.fl

/-- The step is total while running and absent otherwise (R75, a derivation of the spec). That an absent step is a fault is the model's choice (log entry 5). -/
def Obligations.RunningCoreAlwaysStepsAndNoOtherDoes : Prop :=
  (∀ s : State, s.run = .running → ∃ t, step s = .next t ∧
    (t.run = .running ∨ t.run = .halted .hlt ∨ ∃ e, t.run = .halted (.raised e))) ∧
  (∀ s : State, s.run = .idle → step s = .fault .idle) ∧
  (∀ (s : State) (r : HaltReason), s.run = .halted r → step s = .fault .halted)

/-- Halted is final, and only the stimulus still writes R6 (R30, R125, R129); finality is the spec's own decision D13. -/
def Obligations.NothingLeavesHalted : Prop :=
  ∀ (e : Event) (s t : State) (r : HaltReason), s.run = .halted r → eventStep e s = .next t →
    t.run = .halted r ∧ t.pc = s.pc ∧ t.fl = s.fl ∧ t.out = s.out ∧ t.reports = s.reports ∧ SameMemory s t ∧
      SameRegsBut [Reg.is] s t

/-- The placed bytes are what the fetch reads, at every pc with the wrap of R40; the placing itself is the model's (log entry 4). -/
def Obligations.PlacedInstructionIsTheNextStep : Prop :=
  ∀ (s : State) (nbits w : Nat) (i : Instr), decodeTableWord nbits w = some i →
    step (s.withFetchWord nbits w) = exec i (s.withFetchWord nbits w) ∧ (s.withFetchWord nbits w).pc = s.pc

/-- LDI, whole: encoding, exception, effect and frame (R76). -/
def Obligations.LdiLoadsTheImmediate : Prop :=
  (∀ (r : Reg) (imm : Byte), RunsAs 0x99#8 (encodeReg r) imm (.ldi r imm)) ∧
  (∀ b1 b2 : Byte, 7 < b1.toNat → RaisesBadRegister 0x99#8 b1 b2 b1) ∧
  (∀ (r : Reg) (imm : Byte) (s : State), ∃ t, exec (.ldi r imm) s = .next t ∧
    t.reg r = imm ∧ t.pc = s.pc + 3#8 ∧ SameRegsBut [r] s t ∧ t.fl = s.fl ∧ SameMemory s t ∧ SameOutputs s t)

/-- ST, whole: encoding, exceptions, effect and frame (R77). -/
def Obligations.StStoresTheRegisterAtTheAddress : Prop :=
  (∀ a b : Reg, RunsAs 0x9A#8 (encodeReg a) (encodeReg b) (.st a b)) ∧
  (∀ b1 b2 : Byte, 7 < b1.toNat → RaisesBadRegister 0x9A#8 b1 b2 b1) ∧
  (∀ b1 b2 : Byte, b1.toNat ≤ 7 → 7 < b2.toNat → RaisesBadRegister 0x9A#8 b1 b2 b2) ∧
  (∀ (a b : Reg) (s : State), ∃ t, exec (.st a b) s = .next t ∧
    t.read (s.reg a) = s.reg b ∧ SameMemoryBut (s.reg a) s t ∧ t.pc = s.pc + 3#8 ∧ SameRegsBut [] s t ∧ t.fl = s.fl ∧
      SameOutputs s t)

/-- ADD, whole (R80). That results wrap modulo 256 is the spec's own decision D1. -/
def Obligations.AddWritesTheSumModulo256 : Prop :=
  (∀ a b : Reg, RunsAs 0xA8#8 (encodeReg a) (encodeReg b) (.add a b)) ∧
  (∀ b1 b2 : Byte, 7 < b1.toNat → RaisesBadRegister 0xA8#8 b1 b2 b1) ∧
  (∀ b1 b2 : Byte, b1.toNat ≤ 7 → 7 < b2.toNat → RaisesBadRegister 0xA8#8 b1 b2 b2) ∧
  (∀ (a b : Reg) (s : State), ∃ t, exec (.add a b) s = .next t ∧
    (t.reg a).toNat = ((s.reg a).toNat + (s.reg b).toNat) % 256 ∧ t.pc = s.pc + 3#8 ∧ SameRegsBut [a] s t ∧
      t.fl = s.fl ∧ SameMemory s t ∧ SameOutputs s t)

/-- MUL, whole (R81). That results wrap modulo 256 is the spec's own decision D1. -/
def Obligations.MulWritesTheProductModulo256 : Prop :=
  (∀ a b : Reg, RunsAs 0xAA#8 (encodeReg a) (encodeReg b) (.mul a b)) ∧
  (∀ b1 b2 : Byte, 7 < b1.toNat → RaisesBadRegister 0xAA#8 b1 b2 b1) ∧
  (∀ b1 b2 : Byte, b1.toNat ≤ 7 → 7 < b2.toNat → RaisesBadRegister 0xAA#8 b1 b2 b2) ∧
  (∀ (a b : Reg) (s : State), ∃ t, exec (.mul a b) s = .next t ∧
    (t.reg a).toNat = ((s.reg a).toNat * (s.reg b).toNat) % 256 ∧ t.pc = s.pc + 3#8 ∧ SameRegsBut [a] s t ∧
      t.fl = s.fl ∧ SameMemory s t ∧ SameOutputs s t)

/-- CMP, whole (R82). The bit positions of E, G and L are the spec's own decision D4. -/
def Obligations.CmpSetsExactlyOneFlag : Prop :=
  (∀ a b : Reg, RunsAs 0xA0#8 (encodeReg a) (encodeReg b) (.cmp a b)) ∧
  (∀ b1 b2 : Byte, 7 < b1.toNat → RaisesBadRegister 0xA0#8 b1 b2 b1) ∧
  (∀ b1 b2 : Byte, b1.toNat ≤ 7 → 7 < b2.toNat → RaisesBadRegister 0xA0#8 b1 b2 b2) ∧
  (∀ (a b : Reg) (s : State), ∃ t, exec (.cmp a b) s = .next t ∧
    (s.reg a = s.reg b → t.fl = 0x01#8) ∧ ((s.reg b).toNat < (s.reg a).toNat → t.fl = 0x02#8) ∧
      ((s.reg a).toNat < (s.reg b).toNat → t.fl = 0x04#8) ∧
      t.pc = s.pc + 3#8 ∧ SameRegsBut [] s t ∧ SameMemory s t ∧ SameOutputs s t)

/-- PUSH, whole (R84, R86). The wrap and the value PUSH R7 stores are the spec's own decisions D2 and D29. -/
def Obligations.PushStoresTheOldValueBelowSp : Prop :=
  (∀ (r : Reg) (b2 : Byte), RunsAs 0x4D#8 (encodeReg r) b2 (.push r)) ∧
  (∀ b1 b2 : Byte, 7 < b1.toNat → RaisesBadRegister 0x4D#8 b1 b2 b1) ∧
  (∀ (r : Reg) (s : State), ∃ t, exec (.push r) s = .next t ∧
    t.reg Reg.sp = s.reg Reg.sp - 1#8 ∧ t.read s.pushAddr = s.reg r ∧ SameMemoryBut s.pushAddr s t ∧
      s.pushAddr = s.reg Reg.sp - 1#8 ∧ t.pc = s.pc + 2#8 ∧ SameRegsBut [Reg.sp] s t ∧ t.fl = s.fl ∧ SameOutputs s t)

/-- POP, whole (R85, R87). The wrap and what POP R7 leaves are the spec's own decisions D2 and D29. -/
def Obligations.PopLoadsTheByteAtSp : Prop :=
  (∀ (r : Reg) (b2 : Byte), RunsAs 0x4C#8 (encodeReg r) b2 (.pop r)) ∧
  (∀ b1 b2 : Byte, 7 < b1.toNat → RaisesBadRegister 0x4C#8 b1 b2 b1) ∧
  (∀ (r : Reg) (s : State), ∃ t, exec (.pop r) s = .next t ∧
    t.reg r = s.read (s.reg Reg.sp) ∧ (r ≠ Reg.sp → t.reg Reg.sp = s.reg Reg.sp + 1#8) ∧ t.pc = s.pc + 2#8 ∧
      SameRegsBut [r, Reg.sp] s t ∧ t.fl = s.fl ∧ SameMemory s t ∧ SameOutputs s t)

/-- CALL, whole (R94). The wraps and the target of CALL R7 are the spec's own decisions D2 and D12. -/
def Obligations.CallPushesTheReturnAddressAndJumps : Prop :=
  (∀ (r : Reg) (b2 : Byte), RunsAs 0x48#8 (encodeReg r) b2 (.call r)) ∧
  (∀ b1 b2 : Byte, 7 < b1.toNat → RaisesBadRegister 0x48#8 b1 b2 b1) ∧
  (∀ (r : Reg) (s : State), ∃ t, exec (.call r) s = .next t ∧
    t.reg Reg.sp = s.reg Reg.sp - 1#8 ∧ t.read s.pushAddr = s.pc + 2#8 ∧ SameMemoryBut s.pushAddr s t ∧
      s.pushAddr = s.reg Reg.sp - 1#8 ∧ t.pc = (if r = Reg.sp then s.reg Reg.sp - 1#8 else s.reg r) ∧
      SameRegsBut [Reg.sp] s t ∧ t.fl = s.fl ∧ SameOutputs s t)

/-- RET, whole (R95). -/
def Obligations.RetPopsThePc : Prop :=
  (∀ b1 b2 : Byte, RunsAs 0x09#8 b1 b2 .ret) ∧
  (∀ s : State, ∃ t, exec .ret s = .next t ∧
    t.pc = s.read (s.reg Reg.sp) ∧ t.reg Reg.sp = s.reg Reg.sp + 1#8 ∧ SameRegsBut [Reg.sp] s t ∧ t.fl = s.fl ∧
      SameMemory s t ∧ SameOutputs s t)

/-- JMP, whole (R89). -/
def Obligations.JmpGoesToTheRegister : Prop :=
  (∀ (r : Reg) (b2 : Byte), RunsAs 0x50#8 (encodeReg r) b2 (.jmp r)) ∧
  (∀ b1 b2 : Byte, 7 < b1.toNat → RaisesBadRegister 0x50#8 b1 b2 b1) ∧
  (∀ (r : Reg) (s : State), ∃ t, exec (.jmp r) s = .next t ∧
    t.pc = s.reg r ∧ SameRegsBut [] s t ∧ t.fl = s.fl ∧ SameMemory s t ∧ SameOutputs s t)

/-- JEQ, whole (R90). That the register of a jump not taken is checked is the spec's decision D10. -/
def Obligations.JeqJumpsExactlyWhenEqual : Prop :=
  (∀ (r : Reg) (b2 : Byte), RunsAs 0x51#8 (encodeReg r) b2 (.jeq r)) ∧
  (∀ b1 b2 : Byte, 7 < b1.toNat → RaisesBadRegister 0x51#8 b1 b2 b1) ∧
  (∀ (r : Reg) (s : State), ∃ t, exec (.jeq r) s = .next t ∧
    t.pc = (if s.flagE = true then s.reg r else s.pc + 2#8) ∧ SameRegsBut [] s t ∧ t.fl = s.fl ∧ SameMemory s t ∧
      SameOutputs s t)

/-- JNE, whole (R91). That the register of a jump not taken is checked is the spec's decision D10. -/
def Obligations.JneJumpsExactlyWhenNotEqual : Prop :=
  (∀ (r : Reg) (b2 : Byte), RunsAs 0x52#8 (encodeReg r) b2 (.jne r)) ∧
  (∀ b1 b2 : Byte, 7 < b1.toNat → RaisesBadRegister 0x52#8 b1 b2 b1) ∧
  (∀ (r : Reg) (s : State), ∃ t, exec (.jne r) s = .next t ∧
    t.pc = (if s.flagE = false then s.reg r else s.pc + 2#8) ∧ SameRegsBut [] s t ∧ t.fl = s.fl ∧ SameMemory s t ∧
      SameOutputs s t)

/-- JLT, whole (R92). -/
def Obligations.JltJumpsExactlyWhenLess : Prop :=
  (∀ (r : Reg) (b2 : Byte), RunsAs 0x53#8 (encodeReg r) b2 (.jlt r)) ∧
  (∀ b1 b2 : Byte, 7 < b1.toNat → RaisesBadRegister 0x53#8 b1 b2 b1) ∧
  (∀ (r : Reg) (s : State), ∃ t, exec (.jlt r) s = .next t ∧
    t.pc = (if s.flagL = true then s.reg r else s.pc + 2#8) ∧ SameRegsBut [] s t ∧ t.fl = s.fl ∧ SameMemory s t ∧
      SameOutputs s t)

/-- JGT, whole (R93). -/
def Obligations.JgtJumpsExactlyWhenGreater : Prop :=
  (∀ (r : Reg) (b2 : Byte), RunsAs 0x54#8 (encodeReg r) b2 (.jgt r)) ∧
  (∀ b1 b2 : Byte, 7 < b1.toNat → RaisesBadRegister 0x54#8 b1 b2 b1) ∧
  (∀ (r : Reg) (s : State), ∃ t, exec (.jgt r) s = .next t ∧
    t.pc = (if s.flagG = true then s.reg r else s.pc + 2#8) ∧ SameRegsBut [] s t ∧ t.fl = s.fl ∧ SameMemory s t ∧
      SameOutputs s t)

/-- PRN, whole (R97). -/
def Obligations.PrnEmitsTheDecimalEvent : Prop :=
  (∀ (r : Reg) (b2 : Byte), RunsAs 0x43#8 (encodeReg r) b2 (.prn r)) ∧
  (∀ b1 b2 : Byte, 7 < b1.toNat → RaisesBadRegister 0x43#8 b1 b2 b1) ∧
  (∀ (r : Reg) (s : State), ∃ t, exec (.prn r) s = .next t ∧
    t.out = s.out ++ [⟨.dec, s.reg r⟩] ∧ t.pc = s.pc + 2#8 ∧ SameRegsBut [] s t ∧ t.fl = s.fl ∧ SameMemory s t ∧
      t.run = s.run ∧ t.reports = s.reports)

/-- PRA, whole (R98). -/
def Obligations.PraEmitsTheCharacterEvent : Prop :=
  (∀ (r : Reg) (b2 : Byte), RunsAs 0x42#8 (encodeReg r) b2 (.pra r)) ∧
  (∀ b1 b2 : Byte, 7 < b1.toNat → RaisesBadRegister 0x42#8 b1 b2 b1) ∧
  (∀ (r : Reg) (s : State), ∃ t, exec (.pra r) s = .next t ∧
    t.out = s.out ++ [⟨.chr, s.reg r⟩] ∧ t.pc = s.pc + 2#8 ∧ SameRegsBut [] s t ∧ t.fl = s.fl ∧ SameMemory s t ∧
      t.run = s.run ∧ t.reports = s.reports)

/-- HLT, whole (R99, R71). That its cycle does only the pc advance besides is log entry 15 (DEDUCED; R71 is a derivation of the spec); that the absent step after it is the fault halted is log entry 5 (DESIGN CHOICE). -/
def Obligations.HltHaltsAndStillAdvances : Prop :=
  (∀ b1 b2 : Byte, RunsAs 0x01#8 b1 b2 .hlt) ∧
  (∀ s : State, ∃ t, exec .hlt s = .next t ∧
    t.run = .halted .hlt ∧ t.pc = s.pc + 1#8 ∧ SameRegsBut [] s t ∧ t.fl = s.fl ∧ SameMemory s t ∧ t.out = s.out ∧
      t.reports = s.reports ∧ step t = .fault .halted) ∧
  (∀ s : State, s.run = .running → s.reg Reg.is ≠ 0#8 → s.read s.pc = 0x01#8 → step s = step s.interruptEntry)

/-- The stack frame interrupt entry leaves (R111, the spec's own derivation from R110). -/
def Obligations.InterruptEntryLeavesTheFrame : Prop :=
  ∀ s : State,
    s.interruptEntry.read (s.reg 7 - 1#8) = s.pc ∧ s.interruptEntry.read (s.reg 7 - 2#8) = s.reg 0 ∧
    s.interruptEntry.read (s.reg 7 - 3#8) = s.reg 1 ∧ s.interruptEntry.read (s.reg 7 - 4#8) = s.reg 2 ∧
    s.interruptEntry.read (s.reg 7 - 5#8) = s.reg 3 ∧ s.interruptEntry.read (s.reg 7 - 6#8) = s.reg 4 ∧
    s.interruptEntry.read (s.reg 7 - 7#8) = s.reg 5 ∧ s.interruptEntry.read (s.reg 7 - 8#8) = s.reg 6 ∧
    (s.reg 6 ≠ 0#8 → s.interruptEntry.read (s.reg 7 - 8#8) ≠ 0#8) ∧
    s.interruptEntry.read (s.reg 7 - 9#8) = s.reg 7 - 8#8 ∧ s.interruptEntry.reg 7 = s.reg 7 - 9#8

/-- Interrupt entry's other effects and its frame (R110, R112, R113). That the vector is read after the pushes is the spec's own derivation. -/
def Obligations.InterruptEntryChangesNothingElse : Prop :=
  ∀ s : State,
    s.interruptEntry.reg Reg.is = 0#8 ∧ s.interruptEntry.pc = s.interruptEntry.read 0xF8#8 ∧
    SameRegsBut [Reg.is, Reg.sp] s s.interruptEntry ∧
    (∀ a : Byte, ¬InFrame (s.reg Reg.sp) a → s.interruptEntry.read a = s.read a) ∧
    s.interruptEntry.fl = s.fl ∧ SameOutputs s s.interruptEntry

/-- Where entry jumps when its own frame covers the vector (R113, the spec's own derivation from the order of R110). -/
def Obligations.PushOnTheVectorRedirectsTheEntry : Prop :=
  ∀ s : State, s.interruptEntry.pc =
    if s.reg 7 = 0xF9#8 then s.pc else if s.reg 7 = 0xFA#8 then s.reg 0 else if s.reg 7 = 0xFB#8 then s.reg 1
    else if s.reg 7 = 0xFC#8 then s.reg 2 else if s.reg 7 = 0xFD#8 then s.reg 3 else if s.reg 7 = 0xFE#8 then s.reg 4
    else if s.reg 7 = 0xFF#8 then s.reg 5 else if s.reg 7 = 0x00#8 then s.reg 6
    else if s.reg 7 = 0x01#8 then 0xF9#8 else s.read 0xF8#8

/-- The return from an interrupt by ordinary POPs and a RET, for any handler that leaves the frame alone (R116, a derivation of the spec). It runs the handlers by execList, without the interrupt check between them. -/
def Obligations.ReturnSequenceRestoresTheInterruptedState : Prop :=
  ∀ s h : State, h.reg Reg.sp = s.reg Reg.sp - 9#8 →
    (∀ a : Byte, InFrame (s.reg Reg.sp) a → h.read a = s.interruptEntry.read a) →
    ∃ t, execList returnSequence h = .next t ∧ t.pc = s.pc ∧ SameRegsBut [Reg.is] s t ∧ t.reg Reg.is = h.reg Reg.is ∧
      SameMemory h t ∧ t.fl = h.fl ∧ SameOutputs h t

/-- A program's own nonzero write to R6 is serviced at the next cycle (R18, R133; a derivation of the spec, conflict C9). -/
def Obligations.NonzeroR6InterruptsTheNextCycle : Prop :=
  (∀ (i : Instr) (s : State), s.run = .running → Reg.is ∈ destRegs i →
    ∃ t, exec i s = .next t ∧ t.run = .running ∧
      (t.reg Reg.is ≠ 0#8 → step t = step t.interruptEntry ∧ t.interruptEntry.reg Reg.is = 0#8 ∧
        t.interruptEntry.read (t.reg Reg.sp - 8#8) = t.reg Reg.is)) ∧
  (∀ (i : Instr) (s : State), Reg.is ∉ destRegs i → ∃ t, exec i s = .next t ∧ t.reg Reg.is = s.reg Reg.is)

/-- The external interrupt stimulus (R107, R114; the spec's own decisions D19 and D27). The last clause, that a zero byte is refused, is the model's choice (log entry 10). -/
def Obligations.StimulusReplacesR6 : Prop :=
  (∀ (v : Byte) (s : State), v ≠ 0#8 → ∃ t, stimulus v s = .next t ∧ t.reg Reg.is = v ∧ SameRegsBut [Reg.is] s t ∧
    t.pc = s.pc ∧ t.fl = s.fl ∧ SameMemory s t ∧ SameOutputs s t) ∧
  (∀ (v w : Byte) (s t : State), w ≠ 0#8 → stimulus v s = .next t → stimulus w t = stimulus w s) ∧
  (∀ s : State, stimulus 0 s = .refused .stimulusZero)

/-- Only CMP writes FL (R25); FL across an interrupt is the spec's own decision D18. -/
def Obligations.OnlyCmpWritesFlags : Prop :=
  (∀ (i : Instr) (s t : State), (∀ a b, i ≠ .cmp a b) → exec i s = .next t → t.fl = s.fl) ∧
  (∀ s : State, s.interruptEntry.fl = s.fl) ∧
  (∀ s t : State, step s = .next t → t.fl ≠ s.fl →
    ∃ a b, decode s.interruptCheck.fetch.op s.interruptCheck.fetch.b1 s.interruptCheck.fetch.b2 = .instr (.cmp a b))

/-- Only the conditional jumps read FL, each its own flag, and none copies it to a register or memory (R26). -/
def Obligations.FlagsAreReadOnlyByConditionalJumps : Prop :=
  (∀ (i : Instr) (s : State) (f : Byte), ∃ t u, exec i s = .next t ∧ exec i (s.setFl f) = .next u ∧
    u.x = t.x ∧ u.mem = t.mem ∧ u.run = t.run ∧ u.out = t.out ∧ u.reports = t.reports ∧
      (isConditionalJump i = false → u.pc = t.pc)) ∧
  (∀ (r : Reg) (s : State) (f : Byte) (t u : State), (s.setFl f).flagE = s.flagE →
    (exec (.jeq r) s = .next t → exec (.jeq r) (s.setFl f) = .next u → u.pc = t.pc) ∧
      (exec (.jne r) s = .next t → exec (.jne r) (s.setFl f) = .next u → u.pc = t.pc)) ∧
  (∀ (r : Reg) (s : State) (f : Byte) (t u : State), (s.setFl f).flagL = s.flagL →
    exec (.jlt r) s = .next t → exec (.jlt r) (s.setFl f) = .next u → u.pc = t.pc) ∧
  (∀ (r : Reg) (s : State) (f : Byte) (t u : State), (s.setFl f).flagG = s.flagG →
    exec (.jgt r) s = .next t → exec (.jgt r) (s.setFl f) = .next u → u.pc = t.pc)

/-- Only PRN and PRA append to out (R33); the form of the events is the spec's own decision D20. -/
def Obligations.OnlyPrintsAppendToTheOutput : Prop :=
  (∀ (i : Instr) (s t : State), (∀ r, i ≠ .prn r) → (∀ r, i ≠ .pra r) → exec i s = .next t → t.out = s.out) ∧
  (∀ s : State, s.interruptEntry.out = s.out) ∧
  (∀ s t : State, step s = .next t → t.out = s.out ∨ ∃ e, t.out = s.out ++ [e])

/-- Which instructions write memory, where and what (R37, a derivation of the spec). -/
def Obligations.OnlyStPushAndCallWriteMemory : Prop :=
  (∀ (i : Instr) (s t : State), exec i s = .next t → ∀ a : Byte, storeAddr i s ≠ some a → t.read a = s.read a) ∧
  (∀ (a b : Reg) (s t : State), exec (.st a b) s = .next t → t.read (s.reg a) = s.reg b) ∧
  (∀ (r : Reg) (s t : State), exec (.push r) s = .next t → t.read (s.reg Reg.sp - 1#8) = s.reg r) ∧
  (∀ (r : Reg) (s t : State), exec (.call r) s = .next t → t.read (s.reg Reg.sp - 1#8) = s.pc + 2#8)

/-- Which registers an instruction writes (R17, a derivation of the spec). -/
def Obligations.RegistersOutsideTheDestinationsAreKept : Prop :=
  ∀ (i : Instr) (s t : State), exec i s = .next t → SameRegsBut (destRegs i) s t

/-- No other condition is an exception, and a handler always completes (R105, R68). -/
def Obligations.InstructionsRaiseNothing : Prop :=
  ∀ (i : Instr) (s : State), ∃ t, exec i s = .next t ∧ t.reports = s.reports ∧
    (i ≠ .hlt → t.run = s.run) ∧ (i = .hlt → t.run = .halted .hlt)

/-- The control-transfer set by list, how its handlers alone set pc, and the advance of the other opcodes (R62, R69, R70, R94, R95). The wraps and the target of CALL R7 are the spec's own decisions D2 and D12 (log entry 3). -/
def Obligations.PcAdvanceSparesControlTransfers : Prop :=
  (∀ (s : State) (op : Byte), op ∈ controlTransferOpcodes → s.sequencePc op = s) ∧
  (∀ (s : State) (op : Byte), op ∈ validOpcodes → op ∉ controlTransferOpcodes →
    (s.sequencePc op).pc = s.pc + 1#8 + op >>> 6 ∧ (s.sequencePc op).pc ≠ s.pc) ∧
  (0x01#8 ∉ controlTransferOpcodes) ∧
  (∀ (r : Reg) (s t : State), exec (.jmp r) s = .next t → t.pc = s.reg r) ∧
  (∀ (r : Reg) (s t : State), exec (.call r) s = .next t → t.pc = t.reg r) ∧
  (∀ s t : State, exec .ret s = .next t → t.pc = s.read (s.reg Reg.sp)) ∧
  (∀ (i : Instr) (s t : State), isConditionalJump i = true → exec i s = .next t →
    (∃ r, t.pc = s.reg r ∧ i.operandBytes = [encodeReg r]) ∨ t.pc = s.pc + 2#8)

/-- The PC advance (R69, R71); its wrap modulo 256 is the spec's own decision D2. -/
def Obligations.OtherInstructionsAdvanceByTheirLength : Prop :=
  ∀ (i : Instr) (s t : State), i.opcode ∉ controlTransferOpcodes → exec i s = .next t →
    t.pc = s.pc + BitVec.ofNat 8 (encode i).length

/-- PUSH then POP on one register restores it and SP (R87; the R7 case is the spec's own derivation). It runs the handlers by execList, without the interrupt check between them. -/
def Obligations.PopAfterPushRestoresTheRegisters : Prop :=
  ∀ (r : Reg) (s : State), ∃ t, execList [.push r, .pop r] s = .next t ∧ SameRegsBut [] s t ∧
    SameMemoryBut (s.reg Reg.sp - 1#8) s t ∧ t.pc = s.pc + 4#8 ∧ t.fl = s.fl ∧ SameOutputs s t

/-- CALL then RET returns to PC_before_call + 2 (R94, R95). It holds for CALL R7 as well, whose target is the spec's own decision D12. -/
def Obligations.RetAfterCallReturnsBehindTheCall : Prop :=
  ∀ (r : Reg) (s : State), ∃ t, execList [.call r, .ret] s = .next t ∧ t.pc = s.pc + 2#8 ∧ SameRegsBut [] s t ∧
    SameMemoryBut (s.reg Reg.sp - 1#8) s t ∧ t.fl = s.fl ∧ SameOutputs s t

/-- Self-modifying code takes effect at the next fetch (R47, R50, derivations of the spec). -/
def Obligations.StoreToTheNextInstructionIsFetched : Prop :=
  (∀ (a b : Reg) (s : State), s.Ready → s.Holds 0x9A#8 (encodeReg a) (encodeReg b) →
    ∃ t, step s = .next t ∧ t.Ready ∧ t.pc = s.pc + 3#8 ∧ step t = t.fetchAndDispatch ∧
      t.fetch.op = (if s.reg a = s.pc + 3#8 then s.reg b else s.read (s.pc + 3#8)) ∧
      t.fetch.b1 = (if s.reg a = s.pc + 4#8 then s.reg b else s.read (s.pc + 4#8)) ∧
      t.fetch.b2 = (if s.reg a = s.pc + 5#8 then s.reg b else s.read (s.pc + 5#8))) ∧
  (∀ (a b : Reg) (s : State), s.Ready → s.Holds 0x9A#8 (encodeReg a) (encodeReg b) → s.reg a = s.pc + 3#8 →
    s.reg b = 0x01#8 → ∃ t u, step s = .next t ∧ step t = .next u ∧ u.run = .halted .hlt ∧ u.pc = s.pc + 4#8) ∧
  (∀ (a b : Reg) (s : State), s.Ready → s.Holds 0x9A#8 (encodeReg a) (encodeReg b) →
    (s.reg a = s.pc ∨ s.reg a = s.pc + 1#8 ∨ s.reg a = s.pc + 2#8) →
    ∃ t, step s = .next t ∧ t.read (s.reg a) = s.reg b ∧ SameMemoryBut (s.reg a) s t ∧ t.pc = s.pc + 3#8)

/-- Reset values for every RESET_GPR and MEM_INIT (R34; SP is the source's, the rest the spec's own decisions D5 to D9 and D26). -/
def Obligations.ResetLeavesTheResetValues : Prop :=
  (∀ (gpr : Fin 6 → Byte) (memInit : Byte → Byte),
    (State.resetWith gpr memInit).reg Reg.sp = 0xF4#8 ∧ (State.resetWith gpr memInit).reg Reg.is = 0#8 ∧
    (State.resetWith gpr memInit).pc = 0#8 ∧ (State.resetWith gpr memInit).fl = 0#8 ∧
    (State.resetWith gpr memInit).run = .idle ∧ (State.resetWith gpr memInit).out = [] ∧
    (State.resetWith gpr memInit).reports = [] ∧
    (∀ k : Fin 6, (State.resetWith gpr memInit).reg (k.castLE (by decide)) = gpr k) ∧
    (∀ a : Byte, (State.resetWith gpr memInit).read a = memInit a)) ∧
  State.reset.reg Reg.sp = 0xF4#8 ∧ State.reset.reg Reg.is = 0#8 ∧ State.reset.pc = 0#8 ∧ State.reset.fl = 0#8 ∧
  State.reset.run = .idle ∧ State.reset.out = [] ∧ State.reset.reports = []

/-- What the host may do, and when (R128; the spec's own decisions D13, D22, D28). That poke and load outside Idle and stop() after a halt are refused is the model's choice (log entry 10). -/
def Obligations.HostActionsFollowTheRunState : Prop :=
  (∀ (a v : Byte) (s : State), s.run = .idle → ∃ t, hostPoke a v s = .next t ∧ t.read a = v ∧ SameMemoryBut a s t ∧
    SameRegsBut [] s t ∧ t.pc = s.pc ∧ t.fl = s.fl ∧ SameOutputs s t) ∧
  (∀ s : State, s.run = .idle → hostStart s = .next (s.setRun .running)) ∧
  (∀ s : State, (s.run = .idle ∨ s.run = .running) → hostStop s = .next (s.setRun (.halted .externalStop))) ∧
  (∀ (a v : Byte) (image : List Byte) (s : State), s.run ≠ .idle → hostPoke a v s = .refused .memoryNotIdle ∧
    hostLoad image s = .refused .memoryNotIdle ∧ hostStart s = .refused .startNotIdle) ∧
  (∀ (s : State) (r : HaltReason), s.run = .halted r → hostStop s = .refused .stopAfterHalt)

/-- The boot order (R126; pc and the Idle state are the spec's own decisions D6 and D26). -/
def Obligations.BootStartsTheLoadedImageAtZero : Prop :=
  ∀ (gpr : Fin 6 → Byte) (memInit : Byte → Byte) (image : List Byte), image.length ≤ 256 →
    ∃ t, runSchedule [.env (.load image), .env .start] (State.resetWith gpr memInit) = .next t ∧
      t.run = .running ∧ t.pc = 0#8 ∧ t.reg Reg.sp = 0xF4#8 ∧ t.reg Reg.is = 0#8 ∧ t.fl = 0#8 ∧
      (∀ k : Nat, k < image.length → t.read (BitVec.ofNat 8 k) = image.getD k 0) ∧
      (∀ a : Byte, image.length ≤ a.toNat → t.read a = memInit a)

/-- The invariant holds at reset (R24, R34, R103). Its canonical form of memory and its field of reports are the model's own (log entries 7 and 6). -/
def Obligations.ResetMeetsTheInvariant : Prop :=
  State.reset.Inv ∧ ∀ (gpr : Fin 6 → Byte) (memInit : Byte → Byte), (State.resetWith gpr memInit).Inv

/-- An invariant every step keeps: canonical memory, at most one flag (R24, R27), one report exactly after a fatal exception (R103). The FL layout is the spec's own decision D4, the reports field and the canonical form of memory are the model's (log entries 6 and 7). -/
def Obligations.EveryStepKeepsTheInvariant : Prop :=
  ∀ s t : State, s.Inv → step s = .next t → t.Inv

/-- The invariant over runs with any environment (R27, R103, R107, R128). Its canonical form of memory and its field of reports are the model's own (log entries 7 and 6). -/
def Obligations.EveryScheduleKeepsTheInvariant : Prop :=
  ∀ (es : List Event) (s t : State), s.Inv → runSchedule es s = .next t →
    t.Inv ∧ t.reports.length ≤ 1 ∧ (t.fl &&& (t.fl - 1#8)) = 0#8

/-- The observation of an ended run, and when the host may read the state (R128, R129). The functions hostRead and State.observation are the model's own (log entry 16). Output events and the report also reach their sinks as they are sent (R96, R103), which this says nothing about. -/
def Obligations.HaltedRunsShowTheirObservation : Prop :=
  (∀ (s : State) (r : HaltReason), s.run = .halted r →
    s.observation = some ⟨s.x, s.pc, s.fl, s.mem, r, s.out, s.reports⟩ ∧ hostRead s = some s) ∧
  (∀ s : State, s.run = .idle → s.observation = none ∧ hostRead s = some s) ∧
  (∀ s : State, s.run = .running → s.observation = none ∧ hostRead s = none)

/-- Progress under the fairness of the clock (R74; the spec's own decision D24), and an execution that never halts is infinite (R129). The form of an execution is the model's (log entry 12). -/
def Obligations.FairClockTakesAnotherCycle : Prop :=
  (∀ (ev : Nat → Option Event) (st : Nat → State) (n : Nat), IsExecution ev st → FairClock ev st →
    (st n).run = .running →
    ∃ m, n ≤ m ∧ (st m).run = .running ∧ SameRegsBut [Reg.is] (st n) (st m) ∧ (st m).pc = (st n).pc ∧
      (st m).fl = (st n).fl ∧ SameMemory (st n) (st m) ∧ SameOutputs (st n) (st m) ∧
      ((ev m = some .tick ∧ step (st m) = .next (st (m + 1))) ∨
        (ev m = some (.env .stop) ∧ st (m + 1) = (st m).setRun (.halted .externalStop)))) ∧
  (∀ (ev : Nat → Option Event) (st : Nat → State) (n : Nat), IsExecution ev st → FairClock ev st →
    (st n).run = .running → NeverHalts st →
    ∀ k, n ≤ k → ∃ m, k ≤ m ∧ (st m).run = .running ∧ ev m = some .tick ∧ step (st m) = .next (st (m + 1)))

/-- A pending request is serviced at the next cycle in every case (R108, R118, the latter a derivation of the spec), which under the fairness of R74 comes. D21 and D24 are the spec's own decisions; the form of an execution is the model's (log entry 12). -/
def Obligations.PendingInterruptIsEventuallyEntered : Prop :=
  ∀ (ev : Nat → Option Event) (st : Nat → State) (n : Nat), IsExecution ev st → FairClock ev st →
    (st n).run = .running → (st n).reg Reg.is ≠ 0#8 →
    ∃ m, n ≤ m ∧ (st m).run = .running ∧ (st m).pc = (st n).pc ∧ (st m).reg Reg.is ≠ 0#8 ∧
      ((ev m = some .tick ∧ step (st m).interruptEntry = .next (st (m + 1)) ∧
          (st m).interruptEntry.read ((st n).reg Reg.sp - 1#8) = (st n).pc) ∨
        (ev m = some (.env .stop) ∧ (st (m + 1)).run = .halted .externalStop))

/-- Fairness restricts infinite executions only: a running core can always take another cycle (R74, R75; the spec's own decision D24; log entry 12). -/
def Obligations.EveryFiniteRunExtendsToAFairExecution : Prop :=
  ∀ (es : List Event) (s t : State), runSchedule es s = .next t →
    ∃ (ev : Nat → Option Event) (st : Nat → State), IsExecution ev st ∧ FairClock ev st ∧ st 0 = s ∧
      (∀ k, k < es.length → ev k = es[k]?) ∧ st es.length = t
end

