-- ==== Sys2Proof/Laws/State.lean ====
section
/-! SUPPORT. One lemma per field per update of the state, and what registers and memory read after an update. -/

namespace Sys2Proof

/-- IS and SP are different registers. -/
@[simp] theorem Reg.sp_ne_is : Reg.sp ≠ Reg.is := by decide
@[simp] theorem Reg.is_ne_sp : Reg.is ≠ Reg.sp := by decide

end Sys2Proof

namespace Sys2Proof.Machine

variable (s : State)

@[simp] theorem State.setReg_x (r : Reg) (v : Byte) : (s.setReg r v).x = s.x.set r.val v r.isLt := rfl
@[simp] theorem State.setReg_pc (r : Reg) (v : Byte) : (s.setReg r v).pc = s.pc := rfl
@[simp] theorem State.setReg_fl (r : Reg) (v : Byte) : (s.setReg r v).fl = s.fl := rfl
@[simp] theorem State.setReg_mem (r : Reg) (v : Byte) : (s.setReg r v).mem = s.mem := rfl
@[simp] theorem State.setReg_run (r : Reg) (v : Byte) : (s.setReg r v).run = s.run := rfl
@[simp] theorem State.setReg_out (r : Reg) (v : Byte) : (s.setReg r v).out = s.out := rfl
@[simp] theorem State.setReg_reports (r : Reg) (v : Byte) : (s.setReg r v).reports = s.reports := rfl

@[simp] theorem State.write_x (a v : Byte) : (s.write a v).x = s.x := rfl
@[simp] theorem State.write_pc (a v : Byte) : (s.write a v).pc = s.pc := rfl
@[simp] theorem State.write_fl (a v : Byte) : (s.write a v).fl = s.fl := rfl
@[simp] theorem State.write_mem (a v : Byte) : (s.write a v).mem = s.mem.write a v := rfl
@[simp] theorem State.write_run (a v : Byte) : (s.write a v).run = s.run := rfl
@[simp] theorem State.write_out (a v : Byte) : (s.write a v).out = s.out := rfl
@[simp] theorem State.write_reports (a v : Byte) : (s.write a v).reports = s.reports := rfl

@[simp] theorem State.setPc_x (t : Byte) : (s.setPc t).x = s.x := rfl
@[simp] theorem State.setPc_pc (t : Byte) : (s.setPc t).pc = t := rfl
@[simp] theorem State.setPc_fl (t : Byte) : (s.setPc t).fl = s.fl := rfl
@[simp] theorem State.setPc_mem (t : Byte) : (s.setPc t).mem = s.mem := rfl
@[simp] theorem State.setPc_run (t : Byte) : (s.setPc t).run = s.run := rfl
@[simp] theorem State.setPc_out (t : Byte) : (s.setPc t).out = s.out := rfl
@[simp] theorem State.setPc_reports (t : Byte) : (s.setPc t).reports = s.reports := rfl

@[simp] theorem State.setFl_x (v : Byte) : (s.setFl v).x = s.x := rfl
@[simp] theorem State.setFl_pc (v : Byte) : (s.setFl v).pc = s.pc := rfl
@[simp] theorem State.setFl_fl (v : Byte) : (s.setFl v).fl = v := rfl
@[simp] theorem State.setFl_mem (v : Byte) : (s.setFl v).mem = s.mem := rfl
@[simp] theorem State.setFl_run (v : Byte) : (s.setFl v).run = s.run := rfl
@[simp] theorem State.setFl_out (v : Byte) : (s.setFl v).out = s.out := rfl
@[simp] theorem State.setFl_reports (v : Byte) : (s.setFl v).reports = s.reports := rfl

@[simp] theorem State.setRun_x (r : RunState) : (s.setRun r).x = s.x := rfl
@[simp] theorem State.setRun_pc (r : RunState) : (s.setRun r).pc = s.pc := rfl
@[simp] theorem State.setRun_fl (r : RunState) : (s.setRun r).fl = s.fl := rfl
@[simp] theorem State.setRun_mem (r : RunState) : (s.setRun r).mem = s.mem := rfl
@[simp] theorem State.setRun_run (r : RunState) : (s.setRun r).run = r := rfl
@[simp] theorem State.setRun_out (r : RunState) : (s.setRun r).out = s.out := rfl
@[simp] theorem State.setRun_reports (r : RunState) : (s.setRun r).reports = s.reports := rfl

@[simp] theorem State.emit_x (k : OutKind) (v : Byte) : (s.emit k v).x = s.x := rfl
@[simp] theorem State.emit_pc (k : OutKind) (v : Byte) : (s.emit k v).pc = s.pc := rfl
@[simp] theorem State.emit_fl (k : OutKind) (v : Byte) : (s.emit k v).fl = s.fl := rfl
@[simp] theorem State.emit_mem (k : OutKind) (v : Byte) : (s.emit k v).mem = s.mem := rfl
@[simp] theorem State.emit_run (k : OutKind) (v : Byte) : (s.emit k v).run = s.run := rfl
@[simp] theorem State.emit_out (k : OutKind) (v : Byte) : (s.emit k v).out = s.out ++ [⟨k, v⟩] := rfl
@[simp] theorem State.emit_reports (k : OutKind) (v : Byte) : (s.emit k v).reports = s.reports := rfl

@[simp] theorem State.raise_x (e : Exc) : (s.raise e).x = s.x := rfl
@[simp] theorem State.raise_pc (e : Exc) : (s.raise e).pc = s.pc := rfl
@[simp] theorem State.raise_fl (e : Exc) : (s.raise e).fl = s.fl := rfl
@[simp] theorem State.raise_mem (e : Exc) : (s.raise e).mem = s.mem := rfl
@[simp] theorem State.raise_run (e : Exc) : (s.raise e).run = .halted (.raised e) := rfl
@[simp] theorem State.raise_out (e : Exc) : (s.raise e).out = s.out := rfl
@[simp] theorem State.raise_reports (e : Exc) : (s.raise e).reports = s.reports ++ [e.report] := rfl

theorem State.reg_setReg (r q : Reg) (v : Byte) : (s.setReg r v).reg q = if q = r then v else s.reg q := by
  simp only [State.reg, State.setReg, Vector.get_eq_getElem, Vector.getElem_set, Fin.ext_iff, eq_comm]

@[simp] theorem State.reg_setReg_same (r : Reg) (v : Byte) : (s.setReg r v).reg r = v := by
  simp [State.reg_setReg]

theorem State.reg_setReg_other {r q : Reg} (v : Byte) (h : q ≠ r) : (s.setReg r v).reg q = s.reg q := by
  simp [State.reg_setReg, h]

@[simp] theorem State.reg_write (a v : Byte) (q : Reg) : (s.write a v).reg q = s.reg q := rfl
@[simp] theorem State.reg_setPc (t : Byte) (q : Reg) : (s.setPc t).reg q = s.reg q := rfl
@[simp] theorem State.reg_setFl (v : Byte) (q : Reg) : (s.setFl v).reg q = s.reg q := rfl
@[simp] theorem State.reg_setRun (r : RunState) (q : Reg) : (s.setRun r).reg q = s.reg q := rfl
@[simp] theorem State.reg_emit (k : OutKind) (v : Byte) (q : Reg) : (s.emit k v).reg q = s.reg q := rfl
@[simp] theorem State.reg_raise (e : Exc) (q : Reg) : (s.raise e).reg q = s.reg q := rfl

@[simp] theorem State.read_setReg (r : Reg) (v : Byte) (c : Byte) : (s.setReg r v).read c = s.read c := rfl
@[simp] theorem State.read_setPc (t : Byte) (c : Byte) : (s.setPc t).read c = s.read c := rfl
@[simp] theorem State.read_setFl (v : Byte) (c : Byte) : (s.setFl v).read c = s.read c := rfl
@[simp] theorem State.read_setRun (r : RunState) (c : Byte) : (s.setRun r).read c = s.read c := rfl
@[simp] theorem State.read_emit (k : OutKind) (v : Byte) (c : Byte) : (s.emit k v).read c = s.read c := rfl
@[simp] theorem State.read_raise (e : Exc) (c : Byte) : (s.raise e).read c = s.read c := rfl

/-- Two states with equal fields are equal. -/
theorem State.ext_fields {s t : State} (hx : s.x = t.x) (hpc : s.pc = t.pc) (hfl : s.fl = t.fl) (hmem : s.mem = t.mem)
    (hrun : s.run = t.run) (hout : s.out = t.out) (hrep : s.reports = t.reports) : s = t := by
  cases s; cases t; simp_all

end Sys2Proof.Machine
end

