-- ==== Sys2Proof/Laws/Memory.lean ====
section
/-! SUPPORT. Memory reads back what was written, a write leaves every other address alone, and every operation keeps
the canonical form. -/

namespace Sys2Proof.Machine

theorem Memory.read_erase (m : Memory) (a c : Byte) :
    (m.erase a).read c = if c = a then Config.unlistedByte else m.read c := by
  induction m with
  | nil => simp [Memory.erase, Memory.read]
  | cons e rest ih =>
    obtain ⟨k, w⟩ := e
    by_cases hca : c = a
    · subst hca
      by_cases hk : k = c.toNat <;> simp_all [Memory.erase, Memory.read]
    · have hne : c.toNat ≠ a.toNat := fun h => hca (BitVec.eq_of_toNat_eq h)
      by_cases hk : k = a.toNat
      · have hkc : a.toNat ≠ c.toNat := fun h => hne h.symm
        simp_all [Memory.erase, Memory.read]
      · by_cases hkc : k = c.toNat <;> simp_all [Memory.erase, Memory.read]

theorem Memory.read_insert (m : Memory) (a v c : Byte) :
    (m.insert a v).read c = if c = a then v else m.read c := by
  have key : ∀ c : Byte, a.toNat = c.toNat ↔ c = a := fun c =>
    ⟨fun h => (BitVec.eq_of_toNat_eq h).symm, fun h => by rw [h]⟩
  induction m with
  | nil => simp [Memory.insert, Memory.read, key]
  | cons e rest ih =>
    obtain ⟨k, w⟩ := e
    simp only [Memory.insert]
    split
    · simp [Memory.read, key]
    · split
      · rename_i hk
        simp only [Memory.read, hk, key]
        split <;> rfl
      · rename_i hk
        simp only [Memory.read, ih]
        by_cases hkc : k = c.toNat
        · have : c ≠ a := fun h => hk (by rw [hkc, h])
          simp [hkc, this]
        · simp [hkc]

/-- A read after a write: the byte written there, the old byte elsewhere. -/
theorem Memory.read_write (m : Memory) (a v c : Byte) :
    (m.write a v).read c = if c = a then v else m.read c := by
  unfold Memory.write
  split
  · rename_i h
    rw [Memory.read_erase, h]
  · exact Memory.read_insert m a v c

theorem Memory.wfFrom_mono {m : Memory} {lo lo' : Nat} (h : lo' ≤ lo) (hm : Memory.wfFrom lo m = true) :
    Memory.wfFrom lo' m = true := by
  cases m with
  | nil => rfl
  | cons e rest =>
    simp only [Memory.wfFrom, Bool.and_eq_true, decide_eq_true_eq] at hm ⊢
    exact ⟨⟨⟨h.trans hm.1.1.1, hm.1.1.2⟩, hm.1.2⟩, hm.2⟩

theorem Memory.wfFrom_erase (m : Memory) (a : Byte) {lo : Nat} (hm : Memory.wfFrom lo m = true) :
    Memory.wfFrom lo (m.erase a) = true := by
  induction m generalizing lo with
  | nil => rfl
  | cons e rest ih =>
    simp only [Memory.wfFrom, Bool.and_eq_true, decide_eq_true_eq] at hm
    simp only [Memory.erase]
    split
    · exact Memory.wfFrom_mono (by omega) (ih hm.2)
    · simp only [Memory.wfFrom, Bool.and_eq_true, decide_eq_true_eq]
      exact ⟨hm.1, ih hm.2⟩

theorem Memory.wfFrom_insert (m : Memory) (a v : Byte) {lo : Nat} (hv : v ≠ Config.unlistedByte) (hlo : lo ≤ a.toNat)
    (hm : Memory.wfFrom lo m = true) : Memory.wfFrom lo (m.insert a v) = true := by
  have ha := a.isLt
  induction m generalizing lo with
  | nil => simp [Memory.insert, Memory.wfFrom, hv, hlo, ha]
  | cons e rest ih =>
    simp only [Memory.wfFrom, Bool.and_eq_true, decide_eq_true_eq] at hm
    simp only [Memory.insert]
    split
    · simp only [Memory.wfFrom, Bool.and_eq_true, decide_eq_true_eq]
      exact ⟨⟨⟨hlo, ha⟩, hv⟩, ⟨⟨by omega, hm.1.1.2⟩, hm.1.2⟩, hm.2⟩
    · split
      · rename_i h
        simp only [Memory.wfFrom, Bool.and_eq_true, decide_eq_true_eq]
        exact ⟨⟨⟨hlo, ha⟩, hv⟩, h ▸ hm.2⟩
      · simp only [Memory.wfFrom, Bool.and_eq_true, decide_eq_true_eq]
        exact ⟨hm.1, ih (by omega) hm.2⟩

/-- A write keeps the canonical form. -/
theorem Memory.wf_write {m : Memory} (a v : Byte) (hm : m.wf = true) : (m.write a v).wf = true := by
  unfold Memory.write
  split
  · exact Memory.wfFrom_erase m a hm
  · rename_i hv
    exact Memory.wfFrom_insert m a v hv (Nat.zero_le _) hm

theorem Memory.wfFrom_ofFunFrom (f : Byte → Byte) (n lo : Nat) (h : lo + n ≤ 256) :
    Memory.wfFrom lo (Memory.ofFunFrom f lo n) = true := by
  induction n generalizing lo with
  | zero => rfl
  | succ n ih =>
    simp only [Memory.ofFunFrom]
    split
    · exact Memory.wfFrom_mono (Nat.le_succ lo) (ih (lo + 1) (by omega))
    · rename_i hv
      simp only [Memory.wfFrom, Bool.and_eq_true, decide_eq_true_eq]
      exact ⟨⟨⟨Nat.le_refl lo, by omega⟩, hv⟩, ih (lo + 1) (by omega)⟩

/-- Every memory contents has a canonical form. -/
theorem Memory.wf_ofFun (f : Byte → Byte) : (Memory.ofFun f).wf = true :=
  Memory.wfFrom_ofFunFrom f 256 0 (Nat.le_refl _)

theorem Memory.read_ofFunFrom (f : Byte → Byte) (a : Byte) (n lo : Nat) (h : lo + n ≤ 256) :
    (Memory.ofFunFrom f lo n).read a = if lo ≤ a.toNat ∧ a.toNat < lo + n then f a else Config.unlistedByte := by
  induction n generalizing lo with
  | zero =>
    have : ¬(lo ≤ a.toNat ∧ a.toNat < lo + 0) := by omega
    simp [Memory.ofFunFrom, Memory.read]
  | succ n ih =>
    have ih' := ih (lo + 1) (by omega)
    by_cases hla : lo = a.toNat
    · have hf : BitVec.ofNat 8 lo = a := by rw [hla]; simp
      have hin : lo ≤ a.toNat ∧ a.toNat < lo + (n + 1) := by omega
      have hout : ¬(lo + 1 ≤ a.toNat ∧ a.toNat < lo + 1 + n) := by omega
      simp only [Memory.ofFunFrom, hf, hin, and_self, if_true]
      split
      · rename_i hu
        rw [ih', if_neg hout, hu]
      · simp [Memory.read, hla]
    · have hiff : (lo ≤ a.toNat ∧ a.toNat < lo + (n + 1)) ↔ (lo + 1 ≤ a.toNat ∧ a.toNat < lo + 1 + n) := by omega
      simp only [Memory.ofFunFrom, hiff]
      split
      · exact ih'
      · simp only [Memory.read, hla, if_false]
        exact ih'

/-- The canonical memory of `f` reads `f`. -/
theorem Memory.read_ofFun (f : Byte → Byte) (a : Byte) : (Memory.ofFun f).read a = f a := by
  have h := Memory.read_ofFunFrom f a 256 0 (Nat.le_refl _)
  have ha := a.isLt
  rw [if_pos (by omega)] at h
  exact h

/-- The contents that are all unlisted are the empty list. -/
theorem Memory.ofFunFrom_unlisted (n lo : Nat) : Memory.ofFunFrom (fun _ => Config.unlistedByte) lo n = [] := by
  induction n generalizing lo with
  | zero => rfl
  | succ n ih => simp [Memory.ofFunFrom, ih]

/-- `State.reset` is the parameterized reset state at the values log entries 1 and 2 name. -/
theorem State.reset_eq_resetWith :
    State.reset = State.resetWith (fun _ => Config.resetGpr) (fun _ => Config.unlistedByte) := by
  have h : Memory.ofFun (fun _ => Config.unlistedByte) = [] := Memory.ofFunFrom_unlisted 256 0
  simp only [State.reset, State.resetWith, h]

theorem State.read_write (s : State) (a v c : Byte) : (s.write a v).read c = if c = a then v else s.read c :=
  Memory.read_write s.mem a v c

@[simp] theorem State.read_write_same (s : State) (a v : Byte) : (s.write a v).read a = v := by
  simp [State.read_write]

theorem State.read_write_other (s : State) {a c : Byte} (v : Byte) (h : c ≠ a) : (s.write a v).read c = s.read c := by
  simp [State.read_write, h]

end Sys2Proof.Machine
end

