-- ==== Sys2Proof/Laws/Ops.lean ====
section
/-! SUPPORT. What each shared operation does, said once: the stack manager, interrupt entry, the PC advance, decoding a
register byte and the comparison. -/

namespace Sys2Proof

/-- A register's byte names that register again. -/
@[simp] theorem decodeReg_encodeReg (r : Reg) : decodeReg (encodeReg r) = some r := by
  revert r; decide

/-- A byte names a register exactly when it is that register's byte. -/
theorem decodeReg_eq_some {b : Byte} {r : Reg} : decodeReg b = some r ↔ b = encodeReg r := by
  constructor
  · intro h
    unfold decodeReg at h
    split at h
    · rename_i hb
      obtain rfl := Option.some.inj h
      simp [encodeReg]
    · cases h
  · rintro rfl
    exact decodeReg_encodeReg r

/-- A byte names no register exactly when it is above 7 (R55). -/
theorem decodeReg_eq_none {b : Byte} : decodeReg b = none ↔ 7 < b.toNat := by
  unfold decodeReg
  split <;> simp <;> omega

namespace Machine

variable (s : State)

/-- `PushValue`, field by field. -/
@[simp] theorem State.pushValue_pc (v : Byte) : (s.pushValue v).pc = s.pc := rfl
@[simp] theorem State.pushValue_fl (v : Byte) : (s.pushValue v).fl = s.fl := rfl
@[simp] theorem State.pushValue_run (v : Byte) : (s.pushValue v).run = s.run := rfl
@[simp] theorem State.pushValue_out (v : Byte) : (s.pushValue v).out = s.out := rfl
@[simp] theorem State.pushValue_reports (v : Byte) : (s.pushValue v).reports = s.reports := rfl
@[simp] theorem State.pushValue_mem (v : Byte) : (s.pushValue v).mem = s.mem.write s.pushAddr v := rfl

theorem State.reg_pushValue (v : Byte) (q : Reg) :
    (s.pushValue v).reg q = if q = Reg.sp then s.reg Reg.sp - 1#8 else s.reg q := by
  simp [State.pushValue, State.reg_setReg, State.pushAddr]

theorem State.read_pushValue (v a : Byte) :
    (s.pushValue v).read a = if a = s.reg Reg.sp - 1#8 then v else s.read a := by
  simp [State.pushValue, State.read_write, State.pushAddr]

@[simp] theorem State.popSp_pc : s.popSp.pc = s.pc := rfl
@[simp] theorem State.popSp_fl : s.popSp.fl = s.fl := rfl
@[simp] theorem State.popSp_mem : s.popSp.mem = s.mem := rfl
@[simp] theorem State.popSp_run : s.popSp.run = s.run := rfl
@[simp] theorem State.popSp_out : s.popSp.out = s.out := rfl
@[simp] theorem State.popSp_reports : s.popSp.reports = s.reports := rfl
@[simp] theorem State.read_popSp (a : Byte) : s.popSp.read a = s.read a := rfl

theorem State.reg_popSp (q : Reg) : s.popSp.reg q = if q = Reg.sp then s.reg Reg.sp + 1#8 else s.reg q :=
  State.reg_setReg s Reg.sp q _

@[simp] theorem State.pushFrame_pc : s.pushFrame.pc = s.pc := by
  simp [State.pushFrame, State.pushReg]
@[simp] theorem State.pushFrame_fl : s.pushFrame.fl = s.fl := by
  simp [State.pushFrame, State.pushReg]
@[simp] theorem State.pushFrame_run : s.pushFrame.run = s.run := by
  simp [State.pushFrame, State.pushReg]
@[simp] theorem State.pushFrame_out : s.pushFrame.out = s.out := by
  simp [State.pushFrame, State.pushReg]
@[simp] theorem State.pushFrame_reports : s.pushFrame.reports = s.reports := by
  simp [State.pushFrame, State.pushReg]

@[simp] theorem State.interruptEntry_fl : s.interruptEntry.fl = s.fl := by
  simp [State.interruptEntry]
@[simp] theorem State.interruptEntry_run : s.interruptEntry.run = s.run := by
  simp [State.interruptEntry]
@[simp] theorem State.interruptEntry_out : s.interruptEntry.out = s.out := by
  simp [State.interruptEntry]
@[simp] theorem State.interruptEntry_reports : s.interruptEntry.reports = s.reports := by
  simp [State.interruptEntry]
@[simp] theorem State.interruptEntry_mem : s.interruptEntry.mem = s.pushFrame.mem := by
  simp [State.interruptEntry]
@[simp] theorem State.read_interruptEntry (a : Byte) : s.interruptEntry.read a = s.pushFrame.read a := by
  simp [State.interruptEntry]

/-- The nine pushes lower SP by nine and leave every other register alone. -/
theorem State.reg_pushFrame (q : Reg) :
    s.pushFrame.reg q = if q = Reg.sp then s.reg Reg.sp - 9#8 else s.reg q := by
  by_cases h : q = Reg.sp
  · subst h
    simp only [State.pushFrame, State.pushReg, State.reg_pushValue, if_true, BitVec.sub_sub]
    rfl
  · simp [State.pushFrame, State.pushReg, State.reg_pushValue, h]

/-- Entry clears IS, lowers SP by nine, and leaves every other register alone. -/
theorem State.reg_interruptEntry (q : Reg) :
    s.interruptEntry.reg q = if q = Reg.is then 0#8 else if q = Reg.sp then s.reg Reg.sp - 9#8 else s.reg q := by
  simp [State.interruptEntry, State.reg_setReg, State.reg_pushFrame]

/-- After entry no interrupt is pending, so one cycle enters at most once. -/
theorem State.reg_is_interruptEntry : s.interruptEntry.reg Reg.is = 0#8 := by
  simp [State.reg_interruptEntry]

/-- Pushing keeps memory's canonical form. -/
theorem State.wf_pushFrame {s : State} (h : s.mem.wf = true) : s.pushFrame.mem.wf = true := by
  simp only [State.pushFrame, State.pushReg, State.pushValue_mem]
  exact Memory.wf_write _ _ (Memory.wf_write _ _ (Memory.wf_write _ _ (Memory.wf_write _ _ (Memory.wf_write _ _
    (Memory.wf_write _ _ (Memory.wf_write _ _ (Memory.wf_write _ _ (Memory.wf_write _ _ h))))))))

@[simp] theorem State.sequencePc_x (op : Byte) : (s.sequencePc op).x = s.x := by unfold State.sequencePc; split <;> rfl
@[simp] theorem State.sequencePc_fl (op : Byte) : (s.sequencePc op).fl = s.fl := by
  unfold State.sequencePc; split <;> rfl
@[simp] theorem State.sequencePc_mem (op : Byte) : (s.sequencePc op).mem = s.mem := by
  unfold State.sequencePc; split <;> rfl
@[simp] theorem State.sequencePc_run (op : Byte) : (s.sequencePc op).run = s.run := by
  unfold State.sequencePc; split <;> rfl
@[simp] theorem State.sequencePc_out (op : Byte) : (s.sequencePc op).out = s.out := by
  unfold State.sequencePc; split <;> rfl
@[simp] theorem State.sequencePc_reports (op : Byte) : (s.sequencePc op).reports = s.reports := by
  unfold State.sequencePc; split <;> rfl
@[simp] theorem State.reg_sequencePc (op : Byte) (q : Reg) : (s.sequencePc op).reg q = s.reg q := by
  simp [State.reg]
@[simp] theorem State.read_sequencePc (op a : Byte) : (s.sequencePc op).read a = s.read a := by
  simp [State.read]

/-- Step 5 moves past the instruction, or leaves a control transfer's `pc` (R69, R70). -/
theorem State.sequencePc_pc (op : Byte) :
    (s.sequencePc op).pc = if isControlTransfer op then s.pc else s.pc + 1#8 + operandCount op := by
  unfold State.sequencePc; split <;> rfl

@[simp] theorem State.jumpIf_x (t : Bool) (r : Reg) : (s.jumpIf t r).x = s.x := by unfold State.jumpIf; split <;> rfl
@[simp] theorem State.jumpIf_fl (t : Bool) (r : Reg) : (s.jumpIf t r).fl = s.fl := by
  unfold State.jumpIf; split <;> rfl
@[simp] theorem State.jumpIf_mem (t : Bool) (r : Reg) : (s.jumpIf t r).mem = s.mem := by
  unfold State.jumpIf; split <;> rfl
@[simp] theorem State.jumpIf_run (t : Bool) (r : Reg) : (s.jumpIf t r).run = s.run := by
  unfold State.jumpIf; split <;> rfl
@[simp] theorem State.jumpIf_out (t : Bool) (r : Reg) : (s.jumpIf t r).out = s.out := by
  unfold State.jumpIf; split <;> rfl
@[simp] theorem State.jumpIf_reports (t : Bool) (r : Reg) : (s.jumpIf t r).reports = s.reports := by
  unfold State.jumpIf; split <;> rfl
theorem State.jumpIf_pc (t : Bool) (r : Reg) : (s.jumpIf t r).pc = if t then s.reg r else s.pc + 2#8 := by
  unfold State.jumpIf; split <;> rfl

@[simp] theorem State.reg_jumpIf (t : Bool) (r q : Reg) : (s.jumpIf t r).reg q = s.reg q := by simp [State.reg]
@[simp] theorem State.read_jumpIf (t : Bool) (r : Reg) (a : Byte) : (s.jumpIf t r).read a = s.read a := by
  simp [State.read]

@[simp] theorem State.interruptCheck_fl : s.interruptCheck.fl = s.fl := by unfold State.interruptCheck; split <;> simp
@[simp] theorem State.interruptCheck_run : s.interruptCheck.run = s.run := by
  unfold State.interruptCheck; split <;> simp
@[simp] theorem State.interruptCheck_out : s.interruptCheck.out = s.out := by
  unfold State.interruptCheck; split <;> simp
@[simp] theorem State.interruptCheck_reports : s.interruptCheck.reports = s.reports := by
  unfold State.interruptCheck; split <;> simp

/-- The interrupt check keeps memory's canonical form. -/
theorem State.wf_interruptCheck {s : State} (h : s.mem.wf = true) : s.interruptCheck.mem.wf = true := by
  unfold State.interruptCheck
  split
  · rw [State.interruptEntry_mem]
    exact State.wf_pushFrame h
  · exact h

/-- A comparison leaves one of the three single-flag values. -/
theorem compareFlags_cases (a b : Byte) :
    (a = b ∧ compareFlags a b = 0x01#8) ∨ (b.toNat < a.toNat ∧ compareFlags a b = 0x02#8) ∨
      (a.toNat < b.toNat ∧ compareFlags a b = 0x04#8) := by
  unfold compareFlags
  by_cases h : a = b
  · exact .inl ⟨h, by simp [h]⟩
  · have hne : a.toNat ≠ b.toNat := fun e => h (BitVec.eq_of_toNat_eq e)
    by_cases hlt : b.toNat < a.toNat
    · exact .inr (.inl ⟨hlt, by simp [h, hlt]⟩)
    · exact .inr (.inr ⟨by omega, by simp [h, hlt]⟩)

/-- Every instruction answers a next state: no meaning ends in a fault or a refusal. -/
theorem exec_next (i : Instr) : ∃ t, exec i s = .next t := by
  cases i <;> exact ⟨_, rfl⟩

end Machine

end Sys2Proof
end

