-- ==== Sys2Proof/Laws/Decode.lean ====
section
/-! SUPPORT. When the operand formats decode to an instruction and when to a BadReg answer. -/

namespace Sys2Proof

theorem encodeReg_injective {r q : Reg} (h : encodeReg r = encodeReg q) : r = q := by
  simpa using congrArg decodeReg h

theorem decodeR_eq_instr {op b1 : Byte} {mk : Reg → Instr} {i : Instr} :
    decodeR op b1 mk = .instr i ↔ ∃ r, b1 = encodeReg r ∧ i = mk r := by
  unfold decodeR
  split
  · rename_i h
    obtain rfl := decodeReg_eq_some.1 h
    constructor
    · intro h
      exact ⟨_, rfl, (Decoded.instr.inj h).symm⟩
    · rintro ⟨r, hr, rfl⟩
      rw [encodeReg_injective hr]
  · rename_i h
    refine ⟨(by intro h; cases h), ?_⟩
    rintro ⟨r, rfl, rfl⟩
    simp at h

theorem decodeRR_eq_instr {op b1 b2 : Byte} {mk : Reg → Reg → Instr} {i : Instr} :
    decodeRR op b1 b2 mk = .instr i ↔ ∃ a b, b1 = encodeReg a ∧ b2 = encodeReg b ∧ i = mk a b := by
  unfold decodeRR
  split
  · rename_i h h'
    obtain rfl := decodeReg_eq_some.1 h
    obtain rfl := decodeReg_eq_some.1 h'
    constructor
    · intro h
      exact ⟨_, _, rfl, rfl, (Decoded.instr.inj h).symm⟩
    · rintro ⟨a, b, ha, hb, rfl⟩
      rw [encodeReg_injective ha, encodeReg_injective hb]
  · rename_i h
    refine ⟨(by intro h; cases h), ?_⟩
    rintro ⟨a, b, rfl, rfl, rfl⟩
    simp at h
  · rename_i h
    refine ⟨(by intro h; cases h), ?_⟩
    rintro ⟨a, b, rfl, rfl, rfl⟩
    simp at h

/-- A register byte above 7 makes a one-register format a BadReg answer about it (R61). -/
theorem decodeR_of_gt {op b1 : Byte} {mk : Reg → Instr} (h : 7 < b1.toNat) : decodeR op b1 mk = .badReg op b1 := by
  simp [decodeR, decodeReg_eq_none.2 h]

/-- A first register byte above 7 makes the two-register format a BadReg answer about it (R61). -/
theorem decodeRR_of_gt {op b1 b2 : Byte} {mk : Reg → Reg → Instr} (h : 7 < b1.toNat) :
    decodeRR op b1 b2 mk = .badReg op b1 := by
  simp [decodeRR, decodeReg_eq_none.2 h]

/-- A second register byte above 7, after a legal first, makes the two-register format a BadReg answer about the second
(R61). -/
theorem decodeRR_of_le_gt {op b1 b2 : Byte} {mk : Reg → Reg → Instr} (h : b1.toNat ≤ 7) (h' : 7 < b2.toNat) :
    decodeRR op b1 b2 mk = .badReg op b2 := by
  obtain ⟨r, hr⟩ : ∃ r, decodeReg b1 = some r := ⟨⟨b1.toNat, by omega⟩, dif_pos (by omega)⟩
  simp [decodeRR, decodeReg_eq_none.2 h', hr]

end Sys2Proof
end

