-- ==== Sys2Proof/Laws/Environment.lean ====
section
/-! SUPPORT. What writing a block of bytes leaves, for the loader. -/

namespace Sys2Proof.Machine

/-- Writing a block changes memory alone, and keeps its canonical form. -/
theorem State.writeBytes_frame (image : List Byte) (s : State) (a : Byte) :
    (s.writeBytes a image).x = s.x ∧ (s.writeBytes a image).pc = s.pc ∧ (s.writeBytes a image).fl = s.fl ∧
      (s.writeBytes a image).run = s.run ∧ (s.writeBytes a image).out = s.out ∧
      (s.writeBytes a image).reports = s.reports ∧ (s.mem.wf = true → (s.writeBytes a image).mem.wf = true) := by
  induction image generalizing s a with
  | nil => simp [State.writeBytes]
  | cons v rest ih =>
    obtain ⟨h1, h2, h3, h4, h5, h6, h7⟩ := ih (s.write a v) (a + 1)
    exact ⟨h1, h2, h3, h4, h5, h6, fun h => h7 (Memory.wf_write _ _ h)⟩

/-- A block that fits stands at its addresses, and every other byte is as before. -/
theorem State.read_writeBytes (image : List Byte) (s : State) (n : Nat) (c : Byte) (h : n + image.length ≤ 256) :
    (s.writeBytes (BitVec.ofNat 8 n) image).read c =
      if n ≤ c.toNat ∧ c.toNat < n + image.length then image.getD (c.toNat - n) 0#8 else s.read c := by
  induction image generalizing s n with
  | nil =>
    have : ¬(n ≤ c.toNat ∧ c.toNat < n + 0) := by omega
    simp [State.writeBytes]
  | cons v rest ih =>
    simp only [List.length_cons] at h ⊢
    have e : BitVec.ofNat 8 n + 1#8 = BitVec.ofNat 8 (n + 1) := by bv_omega
    rw [State.writeBytes, e, ih _ (n + 1) (by omega), State.read_write]
    by_cases h1 : c.toNat = n
    · have hc : c = BitVec.ofNat 8 n := by rw [← h1]; simp
      rw [if_neg (by omega), if_pos hc, if_pos (by omega), h1]
      simp
    · have hc : c ≠ BitVec.ofNat 8 n := by
        rintro rfl
        apply h1
        simp
        omega
      by_cases h2 : n + 1 ≤ c.toNat ∧ c.toNat < n + 1 + rest.length
      · obtain ⟨m, hm⟩ : ∃ m, c.toNat - n = m + 1 := ⟨c.toNat - n - 1, by omega⟩
        rw [if_pos h2, if_pos (by omega), hm, show c.toNat - (n + 1) = m by omega]
        simp
      · rw [if_neg h2, if_neg hc, if_neg (by omega)]

end Sys2Proof.Machine
end

