-- ==== Sys2Proof/Laws/Execution.lean ====
section
/-! SUPPORT. What can happen at one instant of an execution, and how a schedule becomes its first instants. -/

namespace Sys2Proof.Machine

variable {ev : Nat → Option Event} {st : Nat → State}

@[simp] theorem instantStep_none (s : State) : instantStep none s = .next s := rfl
@[simp] theorem instantStep_some (e : Event) (s : State) : instantStep (some e) s = eventStep e s := rfl

/-- Every event that has an effect on a running machine: a tick, a `stop()` or a stimulus. -/
theorem eventStep_of_running {e : Event} {s t : State} (hr : s.run = .running) (h : eventStep e s = .next t) :
    (e = .tick ∧ step s = .next t) ∨ (e = .env .stop ∧ t = s.setRun (.halted .externalStop)) ∨
      ∃ v, v ≠ 0#8 ∧ e = .env (.stimulus v) ∧ t = s.setReg Reg.is v := by
  cases e with
  | tick => exact .inl ⟨rfl, h⟩
  | env a =>
    cases a with
    | load image => simp [eventStep, envStep, hostLoad, hr] at h
    | poke a v => simp [eventStep, envStep, hostPoke, hr] at h
    | start => simp [eventStep, envStep, hostStart, hr] at h
    | stop =>
      simp only [eventStep, envStep, hostStop, hr, Host.Outcome.next.injEq] at h
      exact .inr (.inl ⟨rfl, h.symm⟩)
    | stimulus v =>
      simp only [eventStep, envStep, stimulus] at h
      split at h
      · cases h
      · next hv => exact .inr (.inr ⟨v, hv, rfl, (Host.Outcome.next.inj h).symm⟩)

/-- One instant of a running machine: a tick, a `stop()`, nothing, or a stimulus. -/
theorem IsExecution.instant_of_running (h : IsExecution ev st) {n : Nat} (hr : (st n).run = .running) :
    (ev n = some .tick ∧ step (st n) = .next (st (n + 1))) ∨
      (ev n = some (.env .stop) ∧ st (n + 1) = (st n).setRun (.halted .externalStop)) ∨
      (ev n = none ∧ st (n + 1) = st n) ∨
      ∃ v, v ≠ 0#8 ∧ ev n = some (.env (.stimulus v)) ∧ st (n + 1) = (st n).setReg Reg.is v := by
  have hn := h n
  cases he : ev n with
  | none =>
    rw [he, instantStep_none] at hn
    exact .inr (.inr (.inl ⟨rfl, (Host.Outcome.next.inj hn).symm⟩))
  | some e =>
    rw [he, instantStep_some] at hn
    rcases eventStep_of_running hr hn with ⟨rfl, h⟩ | ⟨rfl, h⟩ | ⟨v, hv, rfl, h⟩
    · exact .inl ⟨rfl, h⟩
    · exact .inr (.inl ⟨rfl, h⟩)
    · exact .inr (.inr (.inr ⟨v, hv, rfl, h⟩))

/-- An execution with one more event before it. -/
theorem IsExecution.cons {e : Event} {s : State} (h : IsExecution ev st) (hs : eventStep e s = .next (st 0)) :
    IsExecution (fun | 0 => some e | n + 1 => ev n) (fun | 0 => s | n + 1 => st n)
  | 0 => hs
  | n + 1 => h n

/-- One more event before it leaves the clock fair. -/
theorem FairClock.cons {e : Event} {s : State} (h : FairClock ev st) (hs : eventStep e s = .next (st 0)) :
    FairClock (fun | 0 => some e | n + 1 => ev n) (fun | 0 => s | n + 1 => st n)
  | 0, hr => by
    rcases eventStep_of_running hr hs with ⟨rfl, -⟩ | ⟨rfl, -⟩ | ⟨v, -, -, h0⟩
    · exact ⟨0, Nat.le_refl _, .inl rfl⟩
    · exact ⟨0, Nat.le_refl _, .inr rfl⟩
    · obtain ⟨m, -, hm⟩ := h 0 (by rw [h0]; exact hr)
      exact ⟨m + 1, Nat.zero_le _, hm⟩
  | n + 1, hr => by
    obtain ⟨m, hn, hm⟩ := h n hr
    exact ⟨m + 1, Nat.succ_le_succ hn, hm⟩

end Sys2Proof.Machine
end

