-- ==== Sys2Proof/Laws/PerInstr.lean ====
section
/-! SUPPORT. The per-instruction families. `EncodedLength`: an instruction has as many operand bytes as the two high
bits of its opcode say (30_encoding.md R52, R53). -/

namespace Sys2Proof.Laws.EncodedLength

/-- The instruction's bytes are one opcode byte and `opcode[7:6]` operand bytes. -/
def Statement (i : Instr) : Prop :=
  (encode i).length = instrLength i.opcode ∧ i.operandBytes.length = (operandCount i.opcode).toNat

theorem ldi (r : Reg) (imm : Byte) : Statement (.ldi r imm) := by
  simp [Statement, encode, Instr.opcode, Instr.operandBytes, instrLength, operandCount]
theorem add (a b : Reg) : Statement (.add a b) := by
  simp [Statement, encode, Instr.opcode, Instr.operandBytes, instrLength, operandCount]
theorem mul (a b : Reg) : Statement (.mul a b) := by
  simp [Statement, encode, Instr.opcode, Instr.operandBytes, instrLength, operandCount]
theorem cmp (a b : Reg) : Statement (.cmp a b) := by
  simp [Statement, encode, Instr.opcode, Instr.operandBytes, instrLength, operandCount]
theorem st (a b : Reg) : Statement (.st a b) := by
  simp [Statement, encode, Instr.opcode, Instr.operandBytes, instrLength, operandCount]
theorem push (r : Reg) : Statement (.push r) := by
  simp [Statement, encode, Instr.opcode, Instr.operandBytes, instrLength, operandCount]
theorem pop (r : Reg) : Statement (.pop r) := by
  simp [Statement, encode, Instr.opcode, Instr.operandBytes, instrLength, operandCount]
theorem call (r : Reg) : Statement (.call r) := by
  simp [Statement, encode, Instr.opcode, Instr.operandBytes, instrLength, operandCount]
theorem ret : Statement .ret := by
  simp [Statement, encode, Instr.opcode, Instr.operandBytes, instrLength, operandCount]
theorem jmp (r : Reg) : Statement (.jmp r) := by
  simp [Statement, encode, Instr.opcode, Instr.operandBytes, instrLength, operandCount]
theorem jeq (r : Reg) : Statement (.jeq r) := by
  simp [Statement, encode, Instr.opcode, Instr.operandBytes, instrLength, operandCount]
theorem jne (r : Reg) : Statement (.jne r) := by
  simp [Statement, encode, Instr.opcode, Instr.operandBytes, instrLength, operandCount]
theorem jlt (r : Reg) : Statement (.jlt r) := by
  simp [Statement, encode, Instr.opcode, Instr.operandBytes, instrLength, operandCount]
theorem jgt (r : Reg) : Statement (.jgt r) := by
  simp [Statement, encode, Instr.opcode, Instr.operandBytes, instrLength, operandCount]
theorem prn (r : Reg) : Statement (.prn r) := by
  simp [Statement, encode, Instr.opcode, Instr.operandBytes, instrLength, operandCount]
theorem pra (r : Reg) : Statement (.pra r) := by
  simp [Statement, encode, Instr.opcode, Instr.operandBytes, instrLength, operandCount]
theorem hlt : Statement .hlt := by
  simp [Statement, encode, Instr.opcode, Instr.operandBytes, instrLength, operandCount]

end Sys2Proof.Laws.EncodedLength
end

