-- ==== Sys2Proof/Laws/Step.lean ====
section
/-! SUPPORT. The step taken apart once: the interrupt check, the fetch and the three answers of the decoder; and the
bytes of the frame interrupt entry pushes. -/

namespace Sys2Proof.Machine

variable {s : State}

/-- A running core runs a cycle. -/
theorem step_of_running (h : s.run = .running) : step s = s.interruptCheck.fetchAndDispatch := by
  simp [step, State.tick, State.cycle, h]

/-- With IS zero the interrupt check does nothing. -/
theorem State.interruptCheck_of_zero (h : s.reg Reg.is = 0#8) : s.interruptCheck = s := by
  simp [State.interruptCheck, State.interruptPending, h]

/-- With IS nonzero the interrupt check is entry. -/
theorem State.interruptCheck_of_ne (h : s.reg Reg.is ≠ 0#8) : s.interruptCheck = s.interruptEntry := by
  simp [State.interruptCheck, State.interruptPending, h]

/-- The cycle after the interrupt check depends on what the three bytes at `pc` decode to. -/
theorem State.fetchAndDispatch_of_holds {op b1 b2 : Byte} (h : s.Holds op b1 b2) :
    s.fetchAndDispatch = match decode op b1 b2 with
      | .instr i => exec i s
      | .invalid o => .next (s.raise (.invalidOpcode o))
      | .badReg o b => .next (s.raise (.badRegister o b)) := by
  obtain ⟨rfl, rfl, rfl⟩ := h
  rfl

/-- The three bytes at `pc` are always some bytes. -/
theorem State.holds_fetch (s : State) : s.Holds s.fetch.op s.fetch.b1 s.fetch.b2 := ⟨rfl, rfl, rfl⟩

/-- What a step can do: run an instruction or raise one of the two exceptions, from the state the interrupt check
leaves. -/
theorem step_cases {t : State} (h : step s = .next t) :
    s.run = .running ∧
      ((∃ i, decode s.interruptCheck.fetch.op s.interruptCheck.fetch.b1 s.interruptCheck.fetch.b2 = .instr i ∧
          exec i s.interruptCheck = .next t) ∨
        ∃ e, t = s.interruptCheck.raise e) := by
  have hr : s.run = .running := by
    unfold step State.tick at h
    split at h
    · assumption
    · cases h
    · cases h
  refine ⟨hr, ?_⟩
  rw [step_of_running hr, State.fetchAndDispatch_of_holds (State.holds_fetch _)] at h
  split at h
  · exact .inl ⟨_, by assumption, h⟩
  · exact .inr ⟨_, (Host.Outcome.next.inj h).symm⟩
  · exact .inr ⟨_, (Host.Outcome.next.inj h).symm⟩

/-- Memory after the nine pushes: at `SP - k` the `k`-th byte pushed, elsewhere the byte that stood there. -/
theorem State.read_pushFrame (s : State) (a : Byte) :
    s.pushFrame.read a =
      if a = s.reg Reg.sp - 9#8 then s.reg Reg.sp - 8#8
      else if a = s.reg Reg.sp - 8#8 then s.reg 6
      else if a = s.reg Reg.sp - 7#8 then s.reg 5
      else if a = s.reg Reg.sp - 6#8 then s.reg 4
      else if a = s.reg Reg.sp - 5#8 then s.reg 3
      else if a = s.reg Reg.sp - 4#8 then s.reg 2
      else if a = s.reg Reg.sp - 3#8 then s.reg 1
      else if a = s.reg Reg.sp - 2#8 then s.reg 0
      else if a = s.reg Reg.sp - 1#8 then s.pc
      else s.read a := by
  simp [State.pushFrame, State.pushReg, State.read_pushValue, State.reg_pushValue, BitVec.sub_sub, Reg.sp]

end Sys2Proof.Machine
end

