-- ==== Sys2Proof/Tests/Slice0.lean ====
section
/-! SUPPORT. The model's own tests. Expected results are the spec's: 95_test_vectors.md (S1 to S9, sections 2.1 to 2.8,
programs P1 to P6) and the rules each names. Then, for every statement with hypotheses, a state that meets them. -/

namespace Sys2Proof.Tests

open Sys2Proof Sys2Proof.Machine

/-- A running machine with these registers, `pc`, FL and memory, nothing printed or reported. -/
def mk (x : Vector Byte 8) (pc fl : Byte) (mem : Memory) : State :=
  { x := x, pc := pc, fl := fl, mem := mem, run := .running, out := [], reports := [] }

/-- The field `f` of the next state of one step. -/
def after {α : Type} (s : State) (f : State → α) : Option α := (nextState (step s)).map f

/-- The registers of the reset state, with R0 and R1 given. -/
def regs01 (a b : Byte) : Vector Byte 8 := #v[a, b, 0, 0, 0, 0, 0, 0xF4]

/-! The well-formedness checks refuse an ill-formed term each (30_encoding.md R55, R59). -/

theorem test_wellFormed_refuses_invalid_opcode : wellFormed 0x82 0 0 = false := by decide
theorem test_wellFormed_refuses_f1r_register : wellFormed 0x4D 8 0 = false := by decide
theorem test_wellFormed_refuses_f2rr_first_register : wellFormed 0xA8 9 0 = false := by decide
theorem test_wellFormed_refuses_f2rr_second_register : wellFormed 0xA8 0 8 = false := by decide
theorem test_wellFormed_refuses_f2ri_register : wellFormed 0x99 8 0 = false := by decide
theorem test_wellFormed_accepts_any_immediate : wellFormed 0x99 7 0xFF = true := by decide

/-! Every constructor's word, bit by bit from R58 (bit 7 of each byte first), decodes to it. -/

theorem test_decode_ldi : decode 0b10011001 0b00000111 0b11111111 = .instr (.ldi 7 255) := by decide
theorem test_decode_add : decode 0b10101000 0b00000000 0b00000001 = .instr (.add 0 1) := by decide
theorem test_decode_mul : decode 0b10101010 0b00000010 0b00000011 = .instr (.mul 2 3) := by decide
theorem test_decode_cmp : decode 0b10100000 0b00000100 0b00000101 = .instr (.cmp 4 5) := by decide
theorem test_decode_st : decode 0b10011010 0b00000110 0b00000111 = .instr (.st 6 7) := by decide
theorem test_decode_push : decode 0b01001101 0b00000011 0b11111111 = .instr (.push 3) := by decide
theorem test_decode_pop : decode 0b01001100 0b00000101 0b00000000 = .instr (.pop 5) := by decide
theorem test_decode_call : decode 0b01001000 0b00000010 0b00000000 = .instr (.call 2) := by decide
theorem test_decode_ret : decode 0b00001001 0b11111111 0b11111111 = .instr .ret := by decide
theorem test_decode_jmp : decode 0b01010000 0b00000011 0b00000000 = .instr (.jmp 3) := by decide
theorem test_decode_jeq : decode 0b01010001 0b00000100 0b00000000 = .instr (.jeq 4) := by decide
theorem test_decode_jne : decode 0b01010010 0b00000101 0b00000000 = .instr (.jne 5) := by decide
theorem test_decode_jlt : decode 0b01010011 0b00000110 0b00000000 = .instr (.jlt 6) := by decide
theorem test_decode_jgt : decode 0b01010100 0b00000111 0b00000000 = .instr (.jgt 7) := by decide
theorem test_decode_prn : decode 0b01000011 0b00000001 0b00000000 = .instr (.prn 1) := by decide
theorem test_decode_pra : decode 0b01000010 0b00000010 0b00000000 = .instr (.pra 2) := by decide
theorem test_decode_hlt : decode 0b00000001 0b00000000 0b00000000 = .instr .hlt := by decide

/-! Section 2.1: refused words. -/

theorem test_decode_refused :
    decode 0x99 0x08 0x00 = .badReg 0x99 0x08 ∧ decode 0xA8 0x09 0x0A = .badReg 0xA8 0x09 ∧
    decode 0xA8 0x00 0x08 = .badReg 0xA8 0x08 ∧ decode 0x51 0x08 0x00 = .badReg 0x51 0x08 ∧
    decode 0x00 0 0 = .invalid 0x00 ∧ decode 0x02 0 0 = .invalid 0x02 ∧ decode 0x55 0 0 = .invalid 0x55 ∧
    decode 0x82 0 0 = .invalid 0x82 ∧ decode 0xC0 0 0 = .invalid 0xC0 ∧ decode 0xFF 0 0 = .invalid 0xFF := by decide

/-- R63: `LDI R0, 8` is 99 00 08, `ST R0, R1` is 9A 00 01, `PUSH R3` is 4D 03, `RET` is 09. -/
theorem test_encode_examples :
    encode (.ldi 0 8) = [0x99, 0x00, 0x08] ∧ encode (.st 0 1) = [0x9A, 0x00, 0x01] ∧
    encode (.push 3) = [0x4D, 0x03] ∧ encode .ret = [0x09] := by decide

/-- The opcode table's numbering: bit 0 is the least significant bit of the first byte; an 8-bit PUSH has R0. -/
theorem test_decodeTableWord :
    decodeTableWord 24 0x010299 = some (.ldi 2 1) ∧ decodeTableWord 8 0x4D = some (.push 0) ∧
    decodeTableWord 24 0x80099 = some (.ldi 0 8) ∧ decodeTableWord 8 0xFF = none ∧
    decodeTableWord 8 0x084D = some (.push 0) ∧ decodeTableWord 16 0x084D = none := by decide

/-- The step after `withFetchWord` from reset runs the placed instruction: here LDI R2, 200 (S2). -/
theorem test_withFetchWord_reset :
    after (State.reset.withFetchWord 24 0xC80299) (fun t => (t.reg 2, t.pc)) = some (0xC8, 0x03) := by decide

/-! One step each, from sections 1 and 2. -/

/-- 2.2: LDI R1, 0x2A at 0xFE takes its immediate from 0x00. -/
theorem test_ldi_wraps :
    after (mk (regs01 0 0) 0xFE 0 [(0, 0x2A), (0xFE, 0x99), (0xFF, 0x01)]) (fun t => (t.reg 1, t.pc))
      = some (0x2A, 0x01) := by decide

/-- 2.2: ST R0, R1 with x0 = 0xF8, x1 = 0x30 moves the vector. -/
theorem test_st_vector :
    after (mk (regs01 0xF8 0x30) 0x06 0 [(6, 0x9A), (8, 0x01)]) (fun t => (t.read 0xF8, t.pc))
      = some (0x30, 0x09) := by decide

/-- 2.3: 200 + 100 = 44, FL unchanged. -/
theorem test_add_wraps :
    after (mk (regs01 200 100) 0 0x04 [(0, 0xA8), (2, 0x01)]) (fun t => (t.reg 0, t.reg 1, t.fl, t.pc))
      = some (44, 100, 0x04, 3) := by decide

/-- 2.3: ADD R0, R0 with x0 = 0x80 gives 0. -/
theorem test_add_same_register :
    after (mk (regs01 0x80 0) 0 0 [(0, 0xA8)]) (fun t => t.reg 0) = some 0 := by decide

/-- 2.3: 255 * 255 = 65025, low byte 1. -/
theorem test_mul_low_byte :
    after (mk (regs01 255 255) 0 0 [(0, 0xAA), (2, 0x01)]) (fun t => (t.reg 0, t.pc)) = some (1, 3) := by decide

/-- 2.3: CMP 0, 255 is LESS, unsigned. -/
theorem test_cmp_unsigned_less :
    after (mk (regs01 0 255) 0 0x02 [(0, 0xA0), (2, 0x01)]) (fun t => (t.fl, t.reg 0, t.pc))
      = some (0x04, 0, 3) := by decide

/-- S4: CMP(7, 3) is GREATER only. -/
theorem test_cmp_greater :
    after (mk (regs01 7 3) 0 0x04 [(0, 0xA0), (2, 0x01)]) (fun t => t.fl) = some 0x02 := by decide

/-- 2.4: PUSH R7 with SP = 0xF4 stores 0xF4 at 0xF3. -/
theorem test_push_sp :
    after (mk (regs01 0 0) 0 0 [(0, 0x4D), (1, 0x07)]) (fun t => (t.read 0xF3, t.reg 7, t.pc))
      = some (0xF4, 0xF3, 2) := by decide

/-- 2.4: PUSH R0 with SP = 0x00 stores at 0xFF. -/
theorem test_push_wraps :
    after (mk #v[0x11, 0, 0, 0, 0, 0, 0, 0x00] 0x10 0 [(0x10, 0x4D)]) (fun t => (t.read 0xFF, t.reg 7))
      = some (0x11, 0xFF) := by decide

/-- 2.4: POP R7 leaves SP equal to the popped byte. -/
theorem test_pop_sp :
    after (mk #v[0, 0, 0, 0, 0, 0, 0, 0xF3] 0 0 [(0, 0x4C), (1, 0x07), (0xF3, 0x80)]) (fun t => (t.reg 7, t.pc))
      = some (0x80, 2) := by decide

/-- 2.4: POP R2 with SP = 0xFF gives SP = 0x00. -/
theorem test_pop_wraps :
    after (mk #v[0, 0, 0, 0, 0, 0, 0, 0xFF] 0 0 [(0, 0x4C), (1, 0x02), (0xFF, 0x07)])
      (fun t => (t.reg 2, t.reg 7, t.read 0xFF)) = some (0x07, 0x00, 0x07) := by decide

/-- 2.5: CALL R2 at 0x0E with SP = 0xF3. -/
theorem test_call :
    after (mk #v[0, 0, 0x15, 0, 0, 0, 0, 0xF3] 0x0E 0 [(0x0E, 0x48), (0x0F, 0x02)])
      (fun t => (t.read 0xF2, t.reg 7, t.pc)) = some (0x10, 0xF2, 0x15) := by decide

/-- 2.5: CALL R7 jumps to the SP after the push. -/
theorem test_call_sp :
    after (mk (regs01 0 0) 0x20 0 [(0x20, 0x48), (0x21, 0x07)]) (fun t => (t.read 0xF3, t.reg 7, t.pc))
      = some (0x22, 0xF3, 0xF3) := by decide

/-- 2.5: RET with SP = 0xFF. -/
theorem test_ret_wraps :
    after (mk #v[0, 0, 0, 0, 0, 0, 0, 0xFF] 0 0 [(0, 0x09), (0xFF, 0x44)]) (fun t => (t.pc, t.reg 7))
      = some (0x44, 0x00) := by decide

/-- 2.5: JMP R3. -/
theorem test_jmp :
    after (mk #v[0, 0, 0, 0x0C, 0, 0, 0, 0xF4] 0 0 [(0, 0x50), (1, 0x03)]) (fun t => t.pc) = some 0x0C := by decide

/-- 2.5: JEQ R3 at 0xFE, not taken, wraps to 0x00. -/
theorem test_jeq_not_taken_wraps :
    after (mk #v[0, 0, 0, 0x40, 0, 0, 0, 0xF4] 0xFE 0 [(0xFE, 0x51), (0xFF, 0x03)]) (fun t => t.pc)
      = some 0x00 := by decide

/-- 2.5: JEQ R3 with FL = 0x01. -/
theorem test_jeq_taken :
    after (mk #v[0, 0, 0, 0x40, 0, 0, 0, 0xF4] 0x14 1 [(0x14, 0x51), (0x15, 0x03)]) (fun t => t.pc)
      = some 0x40 := by decide

/-- 2.5: JNE R3 before any CMP is taken. -/
theorem test_jne_taken_at_reset_flags :
    after (mk #v[0, 0, 0, 0x0C, 0, 0, 0, 0xF4] 0x14 0 [(0x14, 0x52), (0x15, 0x03)]) (fun t => t.pc)
      = some 0x0C := by decide

/-- 2.5: JNE R3 with FL = 0x01 falls through. -/
theorem test_jne_not_taken :
    after (mk #v[0, 0, 0, 0x0C, 0, 0, 0, 0xF4] 0x14 1 [(0x14, 0x52), (0x15, 0x03)]) (fun t => t.pc)
      = some 0x16 := by decide

/-- 2.5: JLT R2 with FL = 0x04 is taken. -/
theorem test_jlt_taken :
    after (mk #v[0, 0, 0x40, 0, 0, 0, 0, 0xF4] 0x20 4 [(0x20, 0x53), (0x21, 0x02)]) (fun t => t.pc)
      = some 0x40 := by decide

/-- 2.5: JLT R2 with FL = 0x02 is not. -/
theorem test_jlt_not_taken :
    after (mk #v[0, 0, 0x40, 0, 0, 0, 0, 0xF4] 0x20 2 [(0x20, 0x53), (0x21, 0x02)]) (fun t => t.pc)
      = some 0x22 := by decide

/-- 2.5: JGT R2 with FL = 0x02 is taken. -/
theorem test_jgt_taken :
    after (mk #v[0, 0, 0x40, 0, 0, 0, 0, 0xF4] 0x20 2 [(0x20, 0x54), (0x21, 0x02)]) (fun t => t.pc)
      = some 0x40 := by decide

/-- 2.5: JGT R2 with FL = 0x01 is not. -/
theorem test_jgt_not_taken :
    after (mk #v[0, 0, 0x40, 0, 0, 0, 0, 0xF4] 0x20 1 [(0x20, 0x54), (0x21, 0x02)]) (fun t => t.pc)
      = some 0x22 := by decide

/-- 2.6: PRN of 0xFF emits (Dec, 255). -/
theorem test_prn :
    after (mk (regs01 0xFF 0) 0 0 [(0, 0x43)]) (fun t => (t.out, t.pc)) = some ([⟨.dec, 255⟩], 2) := by decide

/-- 2.6: PRA R3 with x3 = 0x21 emits (Chr, 0x21). -/
theorem test_pra :
    after (mk #v[0, 0, 0, 0x21, 0, 0, 0, 0xF4] 0 0 [(0, 0x42), (1, 0x03)]) (fun t => (t.out, t.pc))
      = some ([⟨.chr, 0x21⟩], 2) := by decide

/-- 2.6: HLT at 0xFF leaves pc = 0x00. -/
theorem test_hlt_wraps :
    after (mk (regs01 0 0) 0xFF 0 [(0xFF, 0x01)]) (fun t => (t.run, t.pc)) = some (.halted .hlt, 0x00) := by decide

/-- S9: FF at 0x03 halts with InvalidOpcode(FF), pc still 0x03, report (1, FF). -/
theorem test_invalid_opcode :
    after (mk (regs01 5 0) 0x03 0 [(3, 0xFF)]) (fun t => (t.run, t.pc, t.reports, t.x))
      = some (.halted (.raised (.invalidOpcode 0xFF)), 0x03, [⟨1, [0xFF]⟩], regs01 5 0) := by decide

/-- 2.7: 4D 08 halts with BadRegister(4D, 08), SP unchanged, report (2, 4D, 08). -/
theorem test_bad_register :
    after (mk (regs01 0 0) 0x07 0 [(7, 0x4D), (8, 0x08)]) (fun t => (t.run, t.pc, t.reports, t.reg 7))
      = some (.halted (.raised (.badRegister 0x4D 0x08)), 0x07, [⟨2, [0x4D, 0x08]⟩], 0xF4) := by decide

/-! Interrupts. -/

/-- The start of S7, with HLT at the handler's first byte. -/
def s7 : State := mk #v[0x10, 0x11, 0x12, 0x13, 0x14, 0x15, 0x04, 0xF4] 0x0C 0x02 [(0x80, 0x01), (0xF8, 0x80)]

/-- S7 between entry and fetch: the frame from the top, registers 7..0 and the pc beneath them. -/
theorem test_interrupt_frame :
    [0xEB, 0xEC, 0xED, 0xEE, 0xEF, 0xF0, 0xF1, 0xF2, 0xF3].map s7.interruptEntry.read
      = [0xEC, 0x04, 0x15, 0x14, 0x13, 0x12, 0x11, 0x10, 0x0C] := by decide

/-- S7: IS, SP, FL after entry; the HLT at 0x80 runs in the same cycle. -/
theorem test_interrupt_cycle :
    after s7 (fun t => (t.reg 6, t.reg 7, t.fl, t.pc, t.run)) = some (0, 0xEB, 0x02, 0x81, .halted .hlt) := by decide

/-- 2.8: SP = 0xFC, the push of x2 lands on the vector and entry jumps to it. -/
theorem test_interrupt_overwrites_vector :
    after (mk #v[0, 0, 0x40, 0, 0, 0, 0x01, 0xFC] 0x05 0 [(0x40, 0x01), (0xF8, 0x80)])
      (fun t => (t.read 0xFB, t.read 0xF8, t.read 0xF3, t.reg 7, t.pc, t.run))
      = some (0x05, 0x40, 0xF4, 0xF3, 0x41, .halted .hlt) := by decide

/-- 2.6: a pending interrupt comes before the HLT at 0x0B; LDI R0, 5 at 0x30 runs. -/
theorem test_interrupt_before_hlt :
    after (mk #v[0, 0, 0, 0, 0, 0, 1, 0xF4] 0x0B 0 [(0x0B, 0x01), (0x30, 0x99), (0x32, 0x05), (0xF8, 0x30)])
      (fun t => (t.reg 0, t.pc, t.read 0xF3, t.run)) = some (5, 0x33, 0x0B, .running) := by decide

/-- 2.7: an invalid opcode at the handler's first byte: entry stands. -/
theorem test_interrupt_then_invalid :
    after (mk #v[0, 0, 0, 0, 0, 0, 1, 0xF4] 0x05 0 [(0x80, 0xFF), (0xF8, 0x80)])
      (fun t => (t.run, t.pc, t.reg 6, t.reg 7, t.read 0xF3))
      = some (.halted (.raised (.invalidOpcode 0xFF)), 0x80, 0, 0xEB, 0x05) := by decide

/-! Reset, the run state and the host. -/

/-- R34: SP = 0xF4, Idle; R75: no step while Idle. -/
theorem test_reset : State.reset.reg 7 = 0xF4 ∧ State.reset.run = .idle ∧ nextState (step State.reset) = none := by
  decide

/-- S2 as a run: load, start, and two ticks. -/
theorem test_boot_ldi_prn :
    (nextState (runSchedule [.env (.load [0x99, 0x02, 0xC8, 0x43, 0x02]), .env .start, .tick, .tick] State.reset)).map
      (fun t => (t.reg 2, t.out, t.pc)) = some (0xC8, [⟨.dec, 200⟩], 0x05) := by decide

/-- R128: a second start is refused, and a poke of a running machine too. -/
theorem test_host_refusals :
    nextState (hostStart (mk (regs01 0 0) 0 0 [])) = none ∧ nextState (hostPoke 1 1 (mk (regs01 0 0) 0 0 [])) = none ∧
    nextState (stimulus 0 State.reset) = none := by decide

/-! Memory's canonical form: writing what an unlisted address reads as removes the entry. -/

theorem test_write_default_removes :
    Memory.write [(1, 5), (3, 7)] 3 0 = [(1, 5)] ∧ Memory.write [(1, 5), (3, 7)] 2 9 = [(1, 5), (2, 9), (3, 7)] := by
  decide

/-! NO EMPTY HYPOTHESES: for every statement with hypotheses, a state and operands that meet all of them. -/

/-- A running machine with no interrupt pending and these bytes at 0x10. -/
def at10 (op b1 b2 : Byte) : State :=
  ((mk #v[0x13, 0x01, 3, 4, 5, 6, 0, 0xF4] 0x10 0x01 []).write 0x10 op |>.write 0x11 b1).write 0x12 b2

/-- A running machine with an interrupt pending, SP as given, and these bytes at the vector's target 0x80. -/
def pending (sp op b1 b2 : Byte) : State :=
  ((((mk #v[1, 2, 3, 4, 5, 6, 7, sp] 0x10 0x01 []).write 0xF8 0x80).write 0x80 op).write 0x81 b1).write 0x82 b2

/-- A machine halted by HLT. -/
def halted : State := (at10 1 0 0).setRun (.halted .hlt)

theorem witness_EncodeOfDecodeGivesTheBytes : decode 0xA8 0x07 0x00 = .instr (.add 7 0) := by decide

theorem witness_InvalidOpcodesAreTheOther239 :
    decode 0x82 0 0 = .invalid 0x82 ∧ 0x82#8 ∉ validOpcodes ∧ 0xC0#8 >>> 6 = 3#8 ∧ 0xFF#8 >>> 6 = 3#8 := by decide

theorem witness_BadRegisterNamesTheFirstOffendingByte :
    decode 0x99 0x08 0x00 = .badReg 0x99 0x08 ∧ decode 0x4D 0x08 0x09 = .badReg 0x4D 0x08 ∧
    decode 0xA8 0x07 0x08 = .badReg 0xA8 0x08 := by decide

theorem witness_BytesBeyondTheLengthAreIgnored :
    formatOf 0x09 = some .f0 ∧ decode 0x09 0 0 = .instr .ret ∧ (at10 0x09 0xFF 0xFF).Ready ∧
    (at10 0x09 0xFF 0xFF).Holds 0x09 0xFF 0xFF ∧ formatOf 0x4D = some .f1r ∧ decode 0x4D 3 0 = .instr (.push 3) ∧
    (at10 0x4D 3 0xFF).Ready ∧ (at10 0x4D 3 0xFF).Holds 0x4D 3 0xFF := by decide

theorem witness_StepRunsTheDecodedInstruction :
    (at10 0x99 7 0xFF).Ready ∧ (at10 0x99 7 0xFF).Holds 0x99 7 0xFF ∧ decode 0x99 7 0xFF = .instr (.ldi 7 0xFF) := by
  decide

theorem witness_PendingInterruptIsEnteredBeforeTheFetch :
    (pending 0xF4 1 0 0).run = .running ∧ (pending 0xF4 1 0 0).reg Reg.is ≠ 0#8 ∧
    (at10 0x82 8 0).run = .running ∧ (at10 0x82 8 0).reg Reg.is = 0#8 ∧ (at10 0x82 8 0).Holds 0x82 8 0 ∧
    decode 0x82 8 0 = .invalid 0x82 ∧ (at10 0x4D 8 0).run = .running ∧ (at10 0x4D 8 0).reg Reg.is = 0#8 ∧
    (at10 0x4D 8 0).Holds 0x4D 8 0 ∧ decode 0x4D 8 0 = .badReg 0x4D 8 := by decide

theorem witness_InvalidOpcodeHaltsTheRun :
    (at10 0x00 0 0).Ready ∧ (at10 0x00 0 0).Holds 0x00 0 0 ∧ 0x00#8 ∉ validOpcodes ∧
    (at10 0xFF 0 0).Ready ∧ (at10 0xFF 0 0).Holds 0xFF 0 0 ∧ 0xFF#8 ∉ validOpcodes := by decide

theorem witness_BadRegisterHaltsTheRun :
    (formatOf 0x51 = some .f1r ∧ (at10 0x51 8 0).Ready ∧ (at10 0x51 8 0).Holds 0x51 8 0) ∧
    (formatOf 0xA8 = some .f2rr ∧ (at10 0xA8 7 8).Ready ∧ (at10 0xA8 7 8).Holds 0xA8 7 8) ∧
    (formatOf 0x99 = some .f2ri ∧ (at10 0x99 255 0).Ready ∧ (at10 0x99 255 0).Holds 0x99 255 0) ∧
    7 < (8#8).toNat ∧ (7#8).toNat ≤ 7 := by decide

theorem witness_ExceptionInTheEntryCycleKeepsTheEntry :
    ((pending 0xF4 0xFF 0 0).run = .running ∧ (pending 0xF4 0xFF 0 0).reg Reg.is ≠ 0#8 ∧
      (pending 0xF4 0xFF 0 0).interruptEntry.Holds 0xFF 0 0 ∧ decode 0xFF 0 0 = .invalid 0xFF) ∧
    ((pending 0xF4 0x43 9 0).run = .running ∧ (pending 0xF4 0x43 9 0).reg Reg.is ≠ 0#8 ∧
      (pending 0xF4 0x43 9 0).interruptEntry.Holds 0x43 9 0 ∧ decode 0x43 9 0 = .badReg 0x43 9) := by decide

theorem witness_RunningCoreAlwaysStepsAndNoOtherDoes :
    (at10 1 0 0).run = .running ∧ State.reset.run = .idle ∧ halted.run = .halted .hlt := by decide

theorem witness_NothingLeavesHalted :
    halted.run = .halted .hlt ∧ nextState (eventStep (.env (.stimulus 1)) halted) = some (halted.setReg Reg.is 1) := by
  decide

theorem witness_PlacedInstructionIsTheNextStep :
    decodeTableWord 24 0x010099 = some (.ldi 0 1) ∧ decodeTableWord 8 0x01 = some .hlt := by decide

/-- The hypotheses of the seventeen instruction statements: the bytes at `pc` of a ready machine, and an operand byte
above 7 after a legal one (RunsAs and RaisesBadRegister). -/
theorem witness_RunsAs_three_bytes :
    (at10 0x99 7 0xFF).Ready ∧ (at10 0x99 7 0xFF).Holds 0x99 (encodeReg 7) 0xFF ∧
    (at10 0x9A 7 7).Ready ∧ (at10 0x9A 7 7).Holds 0x9A (encodeReg 7) (encodeReg 7) ∧
    (at10 0xA8 0 7).Ready ∧ (at10 0xA8 0 7).Holds 0xA8 (encodeReg 0) (encodeReg 7) ∧
    (at10 0xAA 0 7).Ready ∧ (at10 0xAA 0 7).Holds 0xAA (encodeReg 0) (encodeReg 7) ∧
    (at10 0xA0 0 7).Ready ∧ (at10 0xA0 0 7).Holds 0xA0 (encodeReg 0) (encodeReg 7) := by decide

theorem witness_RunsAs_shorter :
    (∀ op ∈ [0x4D#8, 0x4C#8, 0x48#8, 0x50#8, 0x51#8, 0x52#8, 0x53#8, 0x54#8, 0x43#8, 0x42#8],
      (at10 op 7 0xFF).Ready ∧ (at10 op 7 0xFF).Holds op (encodeReg 7) 0xFF) ∧
    (∀ op ∈ [0x09#8, 0x01#8], (at10 op 0xFF 0xFF).Ready ∧ (at10 op 0xFF 0xFF).Holds op 0xFF 0xFF) := by decide

theorem witness_RaisesBadRegister :
    (∀ op ∈ [0x99#8, 0x9A#8, 0xA8#8, 0xAA#8, 0xA0#8, 0x4D#8, 0x4C#8, 0x48#8, 0x50#8, 0x51#8, 0x52#8, 0x53#8, 0x54#8,
      0x43#8, 0x42#8], (at10 op 8 0).Ready ∧ (at10 op 8 0).Holds op 8 0) ∧
    (∀ op ∈ [0x9A#8, 0xA8#8, 0xAA#8, 0xA0#8], (at10 op 7 8).Ready ∧ (at10 op 7 8).Holds op 7 8) := by decide

/-- CMP's three cases, and POP's clause for a register that is not SP. -/
theorem witness_CmpSetsExactlyOneFlag :
    (at10 0 0 0).reg 0 ≠ (at10 0 0 0).reg 1 ∧ ((at10 0 0 0).reg 1).toNat < ((at10 0 0 0).reg 0).toNat ∧
    ((at10 0 0 0).reg 6).toNat < ((at10 0 0 0).reg 7).toNat ∧ (at10 0 0 0).reg 3 = (at10 0 0 0).reg 3 := by decide

theorem witness_PopLoadsTheByteAtSp : (6 : Reg) ≠ Reg.sp ∧ ¬((7 : Reg) ≠ Reg.sp) := by decide

theorem witness_HltHaltsAndStillAdvances :
    ((pending 0xF4 0x01 0 0).write 0x10 1).run = .running ∧ ((pending 0xF4 0x01 0 0).write 0x10 1).reg Reg.is ≠ 0#8 ∧
    ((pending 0xF4 0x01 0 0).write 0x10 1).read ((pending 0xF4 0x01 0 0).write 0x10 1).pc = 0x01 := by decide

theorem witness_InterruptEntryLeavesTheFrame : (pending 0xF4 1 0 0).reg 6 ≠ 0#8 := by decide

/-- Boundary addresses of the frame: 9 and 1 below SP are in it, SP itself and 10 below are not. -/
theorem witness_InterruptEntryChangesNothingElse :
    InFrame 0x04 0x03 ∧ InFrame 0x04 0xFB ∧ ¬InFrame 0x04 0x04 ∧ ¬InFrame 0x04 0xFA := by decide

/-- Each clause at its value of SP, and the two neighbours that fall under none: where entry jumps. -/
theorem witness_PushOnTheVectorRedirectsTheEntry :
    [0xF9#8, 0xFA, 0xFB, 0xFC, 0xFD, 0xFE, 0xFF, 0x00, 0x01, 0xF8, 0x02].map (fun sp => (pending sp 1 0 0).interruptEntry.pc)
      = [0x10, 1, 2, 3, 4, 5, 6, 7, 0xF9, 0x80, 0x80] := by decide

theorem witness_ReturnSequenceRestoresTheInterruptedState :
    (pending 0xF4 1 0 0).interruptEntry.reg Reg.sp = (pending 0xF4 1 0 0).reg Reg.sp - 9#8 ∧
    ∀ a : Byte, InFrame ((pending 0xF4 1 0 0).reg Reg.sp) a →
      (pending 0xF4 1 0 0).interruptEntry.read a = (pending 0xF4 1 0 0).interruptEntry.read a :=
  ⟨by decide, fun _ _ => rfl⟩

theorem witness_NonzeroR6InterruptsTheNextCycle :
    (at10 0x99 6 1).run = .running ∧ Reg.is ∈ destRegs (.ldi 6 1) ∧
    (nextState (exec (.ldi 6 1) (at10 0x99 6 1))).map (fun t => t.reg Reg.is != 0#8) = some true ∧
    Reg.is ∉ destRegs (.ldi 5 1) := by decide

theorem witness_StimulusReplacesR6 :
    (2#8) ≠ 0#8 ∧ nextState (stimulus 8 halted) = some (halted.setReg Reg.is 8) := by decide

/-- A step that changes FL, and instructions other than CMP, PRN and PRA that complete. -/
theorem witness_OnlyCmpWritesFlags :
    after (at10 0xA0 0 1) (fun t => t.fl != (at10 0xA0 0 1).fl) = some true ∧
    (∀ a ∈ [0, 7], ∀ b ∈ [0, 7], Instr.hlt ≠ .cmp a b) := by decide

theorem witness_FlagsAreReadOnlyByConditionalJumps :
    isConditionalJump .ret = false ∧ ((at10 0 0 0).setFl 0x05).flagE = (at10 0 0 0).flagE ∧
    ((at10 0 0 0).setFl 0x02).flagL = (at10 0 0 0).flagL ∧ ((at10 0 0 0).setFl 0x04).flagG = (at10 0 0 0).flagG ∧
    (nextState (exec (.jeq 2) (at10 0 0 0))).isSome ∧ (nextState (exec (.jne 2) (at10 0 0 0))).isSome ∧
    (nextState (exec (.jlt 2) (at10 0 0 0))).isSome ∧ (nextState (exec (.jgt 2) (at10 0 0 0))).isSome := by decide

theorem witness_OnlyPrintsAppendToTheOutput :
    (nextState (exec (.ldi 0 1) (at10 0 0 0))).isSome ∧
    after (at10 0x43 0 0) (fun t => t.out) = some ((at10 0x43 0 0).out ++ [⟨.dec, 0x13⟩]) := by decide

theorem witness_OnlyStPushAndCallWriteMemory :
    storeAddr (.st 0 1) (at10 0 0 0) = some 0x13 ∧ storeAddr (.push 0) (at10 0 0 0) = some 0xF3 ∧
    storeAddr .ret (at10 0 0 0) = none ∧ (nextState (exec (.st 0 1) (at10 0 0 0))).isSome ∧
    (nextState (exec (.push 0) (at10 0 0 0))).isSome ∧ (nextState (exec (.call 0) (at10 0 0 0))).isSome := by decide

theorem witness_RegistersOutsideTheDestinationsAreKept :
    (nextState (exec (.pop 3) (at10 0 0 0))).isSome ∧ (2 : Reg) ∉ destRegs (.pop 3) := by decide

theorem witness_InstructionsRaiseNothing : Instr.ret ≠ .hlt ∧ Instr.hlt = .hlt := by decide

theorem witness_PcAdvanceSparesControlTransfers :
    0x48#8 ∈ controlTransferOpcodes ∧ 0x99#8 ∈ validOpcodes ∧ 0x99#8 ∉ controlTransferOpcodes ∧
    isConditionalJump (.jeq 2) = true ∧ (nextState (exec (.jeq 2) (at10 0 0 0))).isSome ∧
    (nextState (exec .ret (at10 0 0 0))).isSome ∧ (nextState (exec (.jmp 2) (at10 0 0 0))).isSome ∧
    (nextState (exec (.call 7) (at10 0 0 0))).isSome := by decide

theorem witness_OtherInstructionsAdvanceByTheirLength :
    Instr.hlt.opcode ∉ controlTransferOpcodes ∧ (nextState (exec .hlt (at10 0 0 0))).isSome ∧
    (Instr.st 0 1).opcode ∉ controlTransferOpcodes ∧ (nextState (exec (.st 0 1) (at10 0 0 0))).isSome := by decide

/-- The ST onto each byte the next cycle fetches, onto the byte before them (its own last) and the byte behind them. -/
theorem witness_StoreToTheNextInstructionIsFetched :
    (at10 0x9A 0 1).Ready ∧ (at10 0x9A 0 1).Holds 0x9A (encodeReg 0) (encodeReg 1) ∧
    (at10 0x9A 0 1).reg 0 = (at10 0x9A 0 1).pc + 3#8 ∧ (at10 0x9A 0 1).reg 1 = 0x01#8 ∧
    (∀ v ∈ [0x12#8, 0x13#8, 0x14#8, 0x15#8, 0x16#8], ((at10 0x9A 0 1).setReg 0 v).Ready ∧
      ((at10 0x9A 0 1).setReg 0 v).Holds 0x9A (encodeReg 0) (encodeReg 1)) ∧
    ((at10 0x9A 0 1).setReg 0 0x14).reg 0 = ((at10 0x9A 0 1).setReg 0 0x14).pc + 4#8 ∧
    ((at10 0x9A 0 1).setReg 0 0x15).reg 0 = ((at10 0x9A 0 1).setReg 0 0x15).pc + 5#8 ∧
    ((at10 0x9A 0 1).setReg 0 0x12).reg 0 = ((at10 0x9A 0 1).setReg 0 0x12).pc + 2#8 := by decide

theorem witness_HostActionsFollowTheRunState :
    State.reset.run = .idle ∧ (at10 1 0 0).run = .running ∧ (at10 1 0 0).run ≠ .idle ∧
    halted.run = .halted .hlt ∧ halted.run ≠ .idle := by decide

/-- The longest image that fits, and an address beyond a short one. -/
theorem witness_BootStartsTheLoadedImageAtZero :
    (List.replicate 256 (0x01#8)).length ≤ 256 ∧ [0x01#8].length ≤ (0x01#8).toNat ∧ 0 < [0x01#8].length :=
  ⟨List.length_replicate.le, by decide, by decide⟩

theorem witness_EveryStepKeepsTheInvariant :
    (at10 0xA0 0 1).Inv ∧ (nextState (step (at10 0xA0 0 1))).isSome ∧ (pending 0xF4 1 0 0).Inv ∧
    (nextState (step (pending 0xF4 1 0 0))).isSome := by decide

theorem witness_EveryScheduleKeepsTheInvariant :
    State.reset.Inv ∧
    (nextState (runSchedule [.env (.load [0xFF]), .env .start, .tick, .env (.stimulus 3)] State.reset)).map
      (fun t => (t.reports, t.reg 6)) = some ([⟨1, [0xFF]⟩], 3) := by decide

theorem witness_HaltedRunsShowTheirObservation :
    halted.run = .halted .hlt ∧ State.reset.run = .idle ∧ (at10 1 0 0).run = .running := by decide

/-- `JMP R0` onto itself, ticked for ever: an execution with a fair clock that never halts. -/
def spin : State := (at10 0x50 0 0).setReg 0 0x10

theorem witness_FairClockTakesAnotherCycle :
    IsExecution (fun _ => some .tick) (fun _ => spin) ∧ FairClock (fun _ => some .tick) (fun _ => spin) ∧
    spin.run = .running ∧ NeverHalts (fun _ => spin) := by
  have hs : step spin = .next spin := rfl
  have hr : spin.run = .running := rfl
  exact ⟨fun _ => hs, fun n _ => ⟨n, Nat.le_refl n, .inl rfl⟩, hr, fun _ _ h => by rw [hr] at h; cases h⟩

/-- The same machine with stimuli for ever and no tick: an execution, but its clock is not fair. -/
theorem test_stimuli_for_ever_are_not_fair :
    IsExecution (fun _ => some (.env (.stimulus 1))) (fun _ => spin.setReg 6 1) ∧
    ¬FairClock (fun _ => some (.env (.stimulus 1))) (fun _ => spin.setReg 6 1) := by
  refine ⟨fun _ => rfl, fun h => ?_⟩
  obtain ⟨m, -, hm | hm⟩ := h 0 rfl <;> cases hm

/-- A machine with an interrupt pending, stopped at the second instant: the clock is fair. -/
theorem witness_PendingInterruptIsEventuallyEntered :
    IsExecution (fun | 1 => some (.env .stop) | _ => none)
      (fun | 0 => pending 0xF4 1 0 0 | 1 => pending 0xF4 1 0 0 | _ => (pending 0xF4 1 0 0).setRun (.halted .externalStop)) ∧
    FairClock (fun | 1 => some (.env .stop) | _ => none)
      (fun | 0 => pending 0xF4 1 0 0 | 1 => pending 0xF4 1 0 0 | _ => (pending 0xF4 1 0 0).setRun (.halted .externalStop)) ∧
    (pending 0xF4 1 0 0).run = .running ∧ (pending 0xF4 1 0 0).reg Reg.is ≠ 0#8 := by
  refine ⟨fun n => ?_, fun n hr => ?_, by decide, by decide⟩
  · match n with
    | 0 => rfl
    | 1 => rfl
    | _ + 2 => rfl
  · match n, hr with
    | 0, _ => exact ⟨1, by decide, .inr rfl⟩
    | 1, _ => exact ⟨1, by decide, .inr rfl⟩

theorem witness_EveryFiniteRunExtendsToAFairExecution :
    (nextState (runSchedule [.env (.load [0x50]), .env (.stimulus 3), .env .start, .tick] State.reset)).isSome := by
  decide

end Sys2Proof.Tests
end

section
/-! PROOFS. The handler of an instruction as a function on states: step 4 of the cycle apart from step 5 (40_cycle.md
R64). Every meaning is this handler followed by the PC advance for the instruction's own opcode
(`exec_eq_handler`), so what an instruction leaves unchanged is said once, of its handler. -/

namespace Sys2Proof.Machine

/-- Step 4 of the cycle: what the handler of `i` makes of the state, before the PC advance. -/
def handler : Instr → State → State
  | .ldi r imm, s => s.setReg r imm
  | .add a b, s => s.setReg a (aluAdd (s.reg a) (s.reg b))
  | .mul a b, s => s.setReg a (aluMul (s.reg a) (s.reg b))
  | .cmp a b, s => s.setFl (compareFlags (s.reg a) (s.reg b))
  | .st a b, s => s.write (s.reg a) (s.reg b)
  | .push r, s => s.pushValue (s.reg r)
  | .pop r, s => s.popSp.setReg r s.popByte
  | .call r, s => (s.pushValue s.afterTwoBytes).setPc ((s.pushValue s.afterTwoBytes).reg r)
  | .ret, s => s.popSp.setPc s.popByte
  | .jmp r, s => s.setPc (s.reg r)
  | .jeq r, s => s.jumpIf s.flagE r
  | .jne r, s => s.jumpIf (!s.flagE) r
  | .jlt r, s => s.jumpIf s.flagL r
  | .jgt r, s => s.jumpIf s.flagG r
  | .prn r, s => s.emit .dec (s.reg r)
  | .pra r, s => s.emit .chr (s.reg r)
  | .hlt, s => s.setRun (.halted .hlt)

/-- Every meaning is its handler followed by the PC advance for its own opcode. -/
theorem exec_eq_handler (i : Instr) (s : State) : exec i s = .next ((handler i s).sequencePc i.opcode) := by
  cases i <;> rfl

theorem exec_eq_next {i : Instr} {s t : State} : exec i s = .next t ↔ t = (handler i s).sequencePc i.opcode := by
  rw [exec_eq_handler, Host.Outcome.next.injEq, eq_comm]

/-- Step 5 does not tell apart two handlers' results that agree on `pc`. -/
theorem State.sequencePc_pc_congr {s t : State} (op : Byte) (h : s.pc = t.pc) :
    (s.sequencePc op).pc = (t.sequencePc op).pc := by
  rw [State.sequencePc_pc, State.sequencePc_pc, h]

variable (i : Instr) (s : State)

/-- No handler sends an error report (60_exceptions.md R105). -/
@[simp] theorem handler_reports : (handler i s).reports = s.reports := by
  cases i <;> simp [handler]

theorem handler_run_of_ne_hlt {i : Instr} (h : i ≠ .hlt) : (handler i s).run = s.run := by
  cases i with
  | hlt => exact absurd rfl h
  | _ => simp [handler]

theorem handler_fl_of_ne_cmp {i : Instr} (h : ∀ a b, i ≠ .cmp a b) : (handler i s).fl = s.fl := by
  cases i with
  | cmp a b => exact absurd rfl (h a b)
  | _ => simp [handler]

theorem handler_out_of_ne_print {i : Instr} (hprn : ∀ r, i ≠ .prn r) (hpra : ∀ r, i ≠ .pra r) :
    (handler i s).out = s.out := by
  cases i with
  | prn r => exact absurd rfl (hprn r)
  | pra r => exact absurd rfl (hpra r)
  | _ => simp [handler]

/-- A handler leaves the output stream or appends one event. -/
theorem handler_out_cases : (handler i s).out = s.out ∨ ∃ e, (handler i s).out = s.out ++ [e] := by
  cases i with
  | prn r => exact .inr ⟨_, rfl⟩
  | pra r => exact .inr ⟨_, rfl⟩
  | _ => exact .inl (handler_out_of_ne_print s (by simp) (by simp))

/-- A handler writes no register but its destinations (10_state.md R17). -/
theorem handler_reg_of_notMem {i : Instr} {q : Reg} (h : q ∉ destRegs i) : (handler i s).reg q = s.reg q := by
  cases i <;> simp_all [handler, destRegs, State.reg_setReg, State.reg_pushValue, State.reg_popSp]

/-- A handler writes memory, where it does, by `Memory.write`, which keeps the canonical form. -/
theorem wf_handler {s : State} (h : s.mem.wf = true) : (handler i s).mem.wf = true := by
  cases i with
  | st a b => exact Memory.wf_write _ _ h
  | push r => exact Memory.wf_write _ _ h
  | call r => exact Memory.wf_write _ _ h
  | _ => simpa [handler] using h

end Sys2Proof.Machine
end

section
/-! PROOFS. The invariant (O53, O54, O55): it holds at reset, every step keeps it, and so does every action of the host
and the stimulus. -/

namespace Sys2Proof.Machine

theorem legalFl_iff {fl : Byte} : legalFl fl = true ↔ fl = 0x00#8 ∨ fl = 0x01#8 ∨ fl = 0x02#8 ∨ fl = 0x04#8 := by
  simp [legalFl, or_assoc]

theorem legalFl_compareFlags (a b : Byte) : legalFl (compareFlags a b) = true := by
  rcases compareFlags_cases a b with ⟨-, h⟩ | ⟨-, h⟩ | ⟨-, h⟩ <;> simp [h, legalFl]

/-- Clearing the lowest set bit of a legal FL leaves nothing: no two flags are set. -/
theorem and_sub_one_of_legalFl {fl : Byte} (h : legalFl fl = true) : fl &&& (fl - 1#8) = 0#8 := by
  rcases legalFl_iff.1 h with rfl | rfl | rfl | rfl <;> rfl

theorem length_reportsOf_le_one (r : RunState) : (reportsOf r).length ≤ 1 := by
  rcases r with _ | _ | (_ | _ | _) <;> simp [reportsOf]

theorem State.resetWith_inv (gpr : Fin 6 → Byte) (memInit : Byte → Byte) : (State.resetWith gpr memInit).Inv :=
  ⟨Memory.wf_ofFun memInit, rfl, rfl⟩

variable {s t : State}

theorem legalFl_handler (i : Instr) (h : legalFl s.fl = true) : legalFl (handler i s).fl = true := by
  by_cases hc : ∃ a b, i = .cmp a b
  · obtain ⟨a, b, rfl⟩ := hc
    exact legalFl_compareFlags _ _
  · rwa [handler_fl_of_ne_cmp s fun a b e => hc ⟨a, b, e⟩]

/-- A running machine has sent no report; it sends none by halting at a HLT either. -/
theorem reportsOf_handler_run (i : Instr) (hr : s.run = .running) : reportsOf (handler i s).run = [] := by
  by_cases h : i = .hlt
  · subst h
    rfl
  · rw [handler_run_of_ne_hlt s h, hr]
    rfl

/-- Before a halt no report has been sent. -/
theorem reports_eq_nil_of_inv (hr : s.run = .idle ∨ s.run = .running) (h : s.Inv) : s.reports = [] := by
  obtain ⟨-, -, hrep⟩ := h
  rcases hr with hr | hr <;> rw [hrep, hr] <;> rfl

theorem exec_inv {i : Instr} (hr : s.run = .running) (h : s.Inv) (he : exec i s = .next t) : t.Inv := by
  have hrep := reports_eq_nil_of_inv (.inr hr) h
  obtain ⟨hwf, hfl, -⟩ := h
  rw [exec_eq_next.1 he]
  refine ⟨?_, ?_, ?_⟩
  · simpa using wf_handler i hwf
  · simpa using legalFl_handler i hfl
  · simpa [reportsOf_handler_run i hr] using hrep

theorem State.raise_inv (e : Exc) (hr : s.run = .running) (h : s.Inv) : (s.raise e).Inv := by
  have hrep := reports_eq_nil_of_inv (.inr hr) h
  obtain ⟨hwf, hfl, -⟩ := h
  exact ⟨hwf, hfl, by simp [hrep, reportsOf]⟩

theorem State.interruptCheck_inv (h : s.Inv) : s.interruptCheck.Inv := by
  obtain ⟨hwf, hfl, hrep⟩ := h
  exact ⟨State.wf_interruptCheck hwf, by simpa using hfl, by simpa using hrep⟩

/-- The interrupt check keeps the invariant and the running state; from there the cycle runs an instruction or raises
one exception. -/
theorem step_inv (h : s.Inv) (hs : step s = .next t) : t.Inv := by
  obtain ⟨hr, hcase⟩ := step_cases hs
  have hr' : s.interruptCheck.run = .running := by rw [State.interruptCheck_run, hr]
  rcases hcase with ⟨i, -, he⟩ | ⟨e, rfl⟩
  · exact exec_inv hr' (State.interruptCheck_inv h) he
  · exact State.raise_inv e hr' (State.interruptCheck_inv h)

/-- Settles O54, from the interrupt check, the handlers and the exceptions each keeping the invariant. -/
theorem everyStepKeepsTheInvariant : Obligations.EveryStepKeepsTheInvariant :=
  fun _ _ => step_inv

/-! When each action of the environment has an effect, and which. -/

theorem hostLoad_eq_next {image : List Byte} :
    hostLoad image s = .next t ↔ s.run = .idle ∧ image.length ≤ 256 ∧ t = s.writeBytes Config.loadAddr image := by
  by_cases hr : s.run = .idle
  · by_cases hl : 256 < image.length
    · simp [hostLoad, hr, hl]
    · simp [hostLoad, hr, hl, Nat.not_lt.1 hl, eq_comm]
  · simp [hostLoad, hr]

theorem hostPoke_eq_next {a v : Byte} : hostPoke a v s = .next t ↔ s.run = .idle ∧ t = s.write a v := by
  by_cases hr : s.run = .idle <;> simp [hostPoke, hr, eq_comm]

theorem hostStart_eq_next : hostStart s = .next t ↔ s.run = .idle ∧ t = s.setRun .running := by
  by_cases hr : s.run = .idle <;> simp [hostStart, hr, eq_comm]

theorem hostStop_eq_next :
    hostStop s = .next t ↔ (s.run = .idle ∨ s.run = .running) ∧ t = s.setRun (.halted .externalStop) := by
  cases hr : s.run <;> simp [hostStop, hr, eq_comm]

theorem stimulus_eq_next {v : Byte} : stimulus v s = .next t ↔ v ≠ 0#8 ∧ t = s.setReg Reg.is v := by
  by_cases hv : v = 0#8 <;> simp [stimulus, hv, eq_comm]

/-- Before a halt a new run state that calls for none keeps the invariant. -/
theorem State.setRun_inv {r : RunState} (hr : s.run = .idle ∨ s.run = .running) (hnone : reportsOf r = [])
    (h : s.Inv) : (s.setRun r).Inv := by
  have hrep := reports_eq_nil_of_inv hr h
  obtain ⟨hwf, hfl, -⟩ := h
  exact ⟨hwf, hfl, by simp [hrep, hnone]⟩

theorem State.write_inv (a v : Byte) (h : s.Inv) : (s.write a v).Inv := by
  obtain ⟨hwf, hrest⟩ := h
  exact ⟨Memory.wf_write a v hwf, hrest⟩

theorem State.writeBytes_inv (image : List Byte) (a : Byte) (h : s.Inv) : (s.writeBytes a image).Inv := by
  induction image generalizing s a with
  | nil => exact h
  | cons v rest ih => exact ih (a + 1#8) (State.write_inv a v h)

theorem envStep_inv {a : EnvAction} (h : s.Inv) (hs : envStep a s = .next t) : t.Inv := by
  cases a with
  | load image =>
    obtain ⟨-, -, rfl⟩ := hostLoad_eq_next.1 hs
    exact State.writeBytes_inv image Config.loadAddr h
  | poke a v =>
    obtain ⟨-, rfl⟩ := hostPoke_eq_next.1 hs
    exact State.write_inv a v h
  | start =>
    obtain ⟨hr, rfl⟩ := hostStart_eq_next.1 hs
    exact State.setRun_inv (.inl hr) rfl h
  | stop =>
    obtain ⟨hr, rfl⟩ := hostStop_eq_next.1 hs
    exact State.setRun_inv hr rfl h
  | stimulus v =>
    obtain ⟨-, rfl⟩ := stimulus_eq_next.1 hs
    exact h

theorem eventStep_inv {e : Event} (h : s.Inv) (hs : eventStep e s = .next t) : t.Inv := by
  cases e with
  | tick => exact step_inv h hs
  | env a => exact envStep_inv h hs

/-- A schedule ends in a state only if its first event has an effect and the rest ends there from its result. -/
theorem runSchedule_cons_eq_next {e : Event} {es : List Event} :
    runSchedule (e :: es) s = .next t ↔ ∃ u, eventStep e s = .next u ∧ runSchedule es u = .next t := by
  rw [runSchedule]
  split <;> simp_all

theorem runSchedule_inv {es : List Event} (h : s.Inv) (hs : runSchedule es s = .next t) : t.Inv := by
  induction es generalizing s with
  | nil =>
    obtain rfl := Host.Outcome.next.inj hs
    exact h
  | cons e es ih =>
    obtain ⟨u, hu, hrest⟩ := runSchedule_cons_eq_next.1 hs
    exact ih (eventStep_inv h hu) hrest

/-- Settles O55, by induction on the schedule; the invariant bounds the reports and the flags. -/
theorem everyScheduleKeepsTheInvariant : Obligations.EveryScheduleKeepsTheInvariant := by
  intro es s t h hs
  have ht := runSchedule_inv h hs
  have ⟨_, hfl, hrep⟩ := ht
  exact ⟨ht, hrep ▸ length_reportsOf_le_one t.run, and_sub_one_of_legalFl hfl⟩

/-- Settles O53: the canonical memory of any contents is canonical, and no report has been sent. -/
theorem resetMeetsTheInvariant : Obligations.ResetMeetsTheInvariant :=
  ⟨State.reset_eq_resetWith ▸ State.resetWith_inv _ _, State.resetWith_inv⟩

end Sys2Proof.Machine
end

section
/-! PROOFS. Halted is final (O14), and the state at reset (O50). -/

namespace Sys2Proof.Machine

/-- The only event that has an effect on a halted machine is the stimulus. -/
theorem eventStep_of_halted {e : Event} {s t : State} {r : HaltReason} (hr : s.run = .halted r)
    (h : eventStep e s = .next t) : ∃ v, v ≠ 0#8 ∧ e = .env (.stimulus v) ∧ t = s.setReg Reg.is v := by
  cases e with
  | tick =>
    obtain ⟨hrun, -⟩ := step_cases h
    simp [hr] at hrun
  | env a =>
    cases a with
    | load image => simp [eventStep, envStep, hostLoad_eq_next, hr] at h
    | poke a v => simp [eventStep, envStep, hostPoke_eq_next, hr] at h
    | start => simp [eventStep, envStep, hostStart_eq_next, hr] at h
    | stop => simp [eventStep, envStep, hostStop_eq_next, hr] at h
    | stimulus v =>
      obtain ⟨hv, ht⟩ := stimulus_eq_next.1 h
      exact ⟨v, hv, rfl, ht⟩

/-- Settles O14: a halted machine changes by a stimulus only, which writes R6 alone. -/
theorem nothingLeavesHalted : Obligations.NothingLeavesHalted := by
  intro e s t r hr h
  obtain ⟨v, -, -, rfl⟩ := eventStep_of_halted hr h
  refine ⟨hr, rfl, rfl, rfl, rfl, fun _ => rfl, fun q hq => ?_⟩
  exact State.reg_setReg_other s v (by simpa using hq)

/-- The registers below IS hold `RESET_GPR` at reset. -/
theorem State.reg_resetWith_castLE (gpr : Fin 6 → Byte) (memInit : Byte → Byte) (k : Fin 6) :
    (State.resetWith gpr memInit).reg (k.castLE (by decide)) = gpr k := by
  fin_cases k <;> rfl

/-- Settles O50, each value read off the reset state. -/
theorem resetLeavesTheResetValues : Obligations.ResetLeavesTheResetValues := by
  refine ⟨fun gpr memInit => ⟨rfl, rfl, rfl, rfl, rfl, rfl, rfl, ?_, ?_⟩, rfl, rfl, rfl, rfl, rfl, rfl, rfl⟩
  · exact State.reg_resetWith_castLE gpr memInit
  · exact Memory.read_ofFun memInit

end Sys2Proof.Machine
end

section
/-! PROOFS. Who writes what: the registers (O43), the interrupt a write to R6 requests (O37), FL (O39) and the output
stream (O41). -/

namespace Sys2Proof.Machine

/-- Settles O43, from the handlers: step 5 writes no register. -/
theorem registersOutsideTheDestinationsAreKept : Obligations.RegistersOutsideTheDestinationsAreKept := by
  intro i s t h q hq
  rw [exec_eq_next.1 h, State.reg_sequencePc, handler_reg_of_notMem s hq]

/-- A pending interrupt is entered once, and the cycle goes on from there. -/
theorem step_eq_step_interruptEntry {s : State} (hr : s.run = .running) (h : s.reg Reg.is ≠ 0#8) :
    step s = step s.interruptEntry := by
  rw [step_of_running hr, State.interruptCheck_of_ne h, step_of_running (by rw [State.interruptEntry_run, hr]),
    State.interruptCheck_of_zero s.reg_is_interruptEntry]

/-- Entry pushes R6 as its eighth byte, before it clears it (60_exceptions.md R111). -/
theorem State.read_interruptEntry_is (s : State) : s.interruptEntry.read (s.reg Reg.sp - 8#8) = s.reg Reg.is := by
  have hne : s.reg Reg.sp - 8#8 ≠ s.reg Reg.sp - 9#8 := by bv_omega
  rw [State.read_interruptEntry, State.read_pushFrame, if_neg hne, if_pos rfl]

/-- Settles O37: an instruction that may write R6 is no HLT, so the machine still runs and its next interrupt check
sees the new R6. -/
theorem nonzeroR6InterruptsTheNextCycle : Obligations.NonzeroR6InterruptsTheNextCycle := by
  refine ⟨fun i s hr hi => ?_, fun i s hi => ?_⟩
  · have hne : i ≠ .hlt := by
      rintro rfl
      simp [destRegs] at hi
    obtain ⟨t, ht⟩ := exec_next s i
    have hrun : t.run = .running := by
      rw [exec_eq_next.1 ht, State.sequencePc_run, handler_run_of_ne_hlt s hne, hr]
    exact ⟨t, ht, hrun, fun h =>
      ⟨step_eq_step_interruptEntry hrun h, t.reg_is_interruptEntry, t.read_interruptEntry_is⟩⟩
  · obtain ⟨t, ht⟩ := exec_next s i
    exact ⟨t, ht, registersOutsideTheDestinationsAreKept i s t ht Reg.is hi⟩

theorem exec_fl_of_ne_cmp {i : Instr} {s t : State} (h : ∀ a b, i ≠ .cmp a b) (he : exec i s = .next t) :
    t.fl = s.fl := by
  rw [exec_eq_next.1 he, State.sequencePc_fl, handler_fl_of_ne_cmp s h]

/-- Settles O39: of the ways a step can go, only a CMP changes FL. -/
theorem onlyCmpWritesFlags : Obligations.OnlyCmpWritesFlags := by
  refine ⟨fun i s t h he => exec_fl_of_ne_cmp h he, State.interruptEntry_fl, fun s t hs hne => ?_⟩
  obtain ⟨-, ⟨i, hdec, he⟩ | ⟨e, rfl⟩⟩ := step_cases hs
  · by_contra hno
    have hcmp : ∀ a b, i ≠ .cmp a b := fun a b hi => hno ⟨a, b, hi ▸ hdec⟩
    exact hne (by rw [exec_fl_of_ne_cmp hcmp he, State.interruptCheck_fl])
  · exact absurd (by simp) hne

/-- Settles O41: the interrupt check and the exceptions leave the output, a handler appends one event at most. -/
theorem onlyPrintsAppendToTheOutput : Obligations.OnlyPrintsAppendToTheOutput := by
  refine ⟨fun i s t hprn hpra he => ?_, State.interruptEntry_out, fun s t hs => ?_⟩
  · rw [exec_eq_next.1 he, State.sequencePc_out, handler_out_of_ne_print s hprn hpra]
  · obtain ⟨-, ⟨i, -, he⟩ | ⟨e, rfl⟩⟩ := step_cases hs
    · rw [exec_eq_next.1 he, State.sequencePc_out, ← State.interruptCheck_out s]
      exact handler_out_cases i s.interruptCheck
    · exact .inl (by simp)

end Sys2Proof.Machine
end

section
/-! PROOFS. Who reads FL (O40). A handler that is no conditional jump commutes with a change of FL, up to FL; a
conditional jump is `jumpIf` on its own flag. -/

namespace Sys2Proof.Machine

variable (s : State) (f : Byte)

/-- What a conditional jump does besides FL depends on whether it is taken alone. -/
theorem State.jumpIf_setFl (taken : Bool) (r : Reg) : (s.setFl f).jumpIf taken r = (s.jumpIf taken r).setFl f := by
  unfold State.jumpIf
  split <;> rfl

theorem handler_of_conditionalJump {i : Instr} (h : isConditionalJump i = true) :
    ∃ r, ∀ s, ∃ taken, handler i s = s.jumpIf taken r := by
  cases i with
  | jeq r => exact ⟨r, fun _ => ⟨_, rfl⟩⟩
  | jne r => exact ⟨r, fun _ => ⟨_, rfl⟩⟩
  | jlt r => exact ⟨r, fun _ => ⟨_, rfl⟩⟩
  | jgt r => exact ⟨r, fun _ => ⟨_, rfl⟩⟩
  | _ => cases h

/-- Any other handler gives the same state but for FL, which it leaves as changed or, for CMP, overwrites. -/
theorem handler_setFl_of_not_conditionalJump {i : Instr} (h : isConditionalJump i = false) :
    ∃ g, handler i (s.setFl f) = (handler i s).setFl g := by
  cases i with
  | jeq r => cases h
  | jne r => cases h
  | jlt r => cases h
  | jgt r => cases h
  | cmp a b => exact ⟨compareFlags (s.reg a) (s.reg b), rfl⟩
  | _ => exact ⟨f, rfl⟩

/-- Changing FL changes nothing a handler leaves but FL and, for a conditional jump, `pc`. -/
theorem handler_setFl_frame (i : Instr) :
    (handler i (s.setFl f)).x = (handler i s).x ∧ (handler i (s.setFl f)).mem = (handler i s).mem ∧
      (handler i (s.setFl f)).run = (handler i s).run ∧ (handler i (s.setFl f)).out = (handler i s).out ∧
      (isConditionalJump i = false → (handler i (s.setFl f)).pc = (handler i s).pc) := by
  cases h : isConditionalJump i with
  | false =>
    obtain ⟨g, hg⟩ := handler_setFl_of_not_conditionalJump s f h
    simp [hg]
  | true =>
    obtain ⟨r, hr⟩ := handler_of_conditionalJump h
    obtain ⟨c, hc⟩ := hr s
    obtain ⟨d, hd⟩ := hr (s.setFl f)
    simp [hc, hd]

/-- Two meanings whose handlers agree on `pc` end with equal `pc`. -/
theorem exec_pc_congr {i : Instr} {s s' t u : State} (h : (handler i s').pc = (handler i s).pc)
    (ht : exec i s = .next t) (hu : exec i s' = .next u) : u.pc = t.pc := by
  rw [exec_eq_next.1 ht, exec_eq_next.1 hu]
  exact State.sequencePc_pc_congr _ h

/-- Settles O40: each conditional jump is `jumpIf` on its own flag, and no other handler looks at FL. -/
theorem flagsAreReadOnlyByConditionalJumps : Obligations.FlagsAreReadOnlyByConditionalJumps := by
  refine ⟨fun i s f => ?_, fun r s f t u h => ⟨exec_pc_congr ?_, exec_pc_congr ?_⟩,
    fun r s f t u h => exec_pc_congr ?_, fun r s f t u h => exec_pc_congr ?_⟩
  · obtain ⟨hx, hmem, hrun, hout, hpc⟩ := handler_setFl_frame s f i
    refine ⟨_, _, exec_eq_handler i s, exec_eq_handler i (s.setFl f), ?_⟩
    refine ⟨by simpa using hx, by simpa using hmem, by simpa using hrun, by simpa using hout, by simp, fun hj => ?_⟩
    exact State.sequencePc_pc_congr _ (hpc hj)
  all_goals simp [handler, h, State.jumpIf_setFl]

end Sys2Proof.Machine
end

section
/-! PROOFS. Memory (20_memory.md): which instructions store, where and what (O42), and that the next fetch sees a byte
ST has stored (O49). -/

namespace Sys2Proof.Machine

variable {s t : State}

/-- A handler stores at its store address alone (20_memory.md R37). -/
theorem handler_read_of_storeAddr_ne {i : Instr} {a : Byte} (h : storeAddr i s ≠ some a) :
    (handler i s).read a = s.read a := by
  have hne {c : Byte} (h : some c ≠ some a) : a ≠ c := fun e => h (congrArg some e.symm)
  cases i with
  | st r q => exact State.read_write_other s _ (hne h)
  | push r => exact (State.read_pushValue s _ a).trans (if_neg (hne h))
  | call r => exact (State.read_pushValue s _ a).trans (if_neg (hne h))
  | _ => simp [handler]

/-- Step 5 touches no memory: an instruction leaves at an address what its handler leaves there. -/
theorem exec_read {i : Instr} (he : exec i s = .next t) (a : Byte) : t.read a = (handler i s).read a := by
  rw [exec_eq_next.1 he, State.read_sequencePc]

/-- Settles O42, from the handlers: the frame by `storeAddr`, the stored bytes by the write and the two pushes. -/
theorem onlyStPushAndCallWriteMemory : Obligations.OnlyStPushAndCallWriteMemory := by
  refine ⟨fun i s t he a h => ?_, fun a b s t he => ?_, fun r s t he => ?_, fun r s t he => ?_⟩
  · rw [exec_read he, handler_read_of_storeAddr_ne h]
  · rw [exec_read he, handler, State.read_write_same]
  · rw [exec_read he, handler, State.read_pushValue, if_pos rfl]
  · rw [exec_read he, handler, State.read_setPc, State.read_pushValue, if_pos rfl, State.afterTwoBytes]

/-- With no interrupt pending the step of a running core is the fetch and dispatch. -/
theorem step_of_ready (h : s.Ready) : step s = s.fetchAndDispatch := by
  rw [step_of_running h.1, State.interruptCheck_of_zero h.2]

/-- A ready core runs the instruction its three bytes at `pc` decode to. -/
theorem step_of_decode {op b1 b2 : Byte} {i : Instr} (h : s.Ready) (hb : s.Holds op b1 b2)
    (hd : decode op b1 b2 = .instr i) : step s = exec i s := by
  rw [step_of_ready h, State.fetchAndDispatch_of_holds hb, hd]

/-- ST in one step: one byte written, `pc` moved past the three bytes, nothing else. -/
theorem step_of_holds_st {a b : Reg} (h : s.Ready) (hb : s.Holds 0x9A#8 (encodeReg a) (encodeReg b)) :
    step s = .next ((s.write (s.reg a) (s.reg b)).setPc (s.pc + 3#8)) := by
  have hd : decode 0x9A#8 (encodeReg a) (encodeReg b) = .instr (.st a b) :=
    decodeRR_eq_instr.2 ⟨a, b, rfl, rfl, rfl⟩
  have hpc : s.pc + 1#8 + operandCount 0x9A#8 = s.pc + 3#8 := BitVec.add_assoc ..
  rw [step_of_decode h hb hd, ← hpc]
  rfl

/-- HLT in one step: the run halts, and `pc` still moves on by one (40_cycle.md R71). -/
theorem step_of_read_hlt (h : s.Ready) (hop : s.read s.pc = 0x01#8) :
    step s = .next ((s.setRun (.halted .hlt)).setPc (s.pc + 1#8)) := by
  have hpc : s.pc + 1#8 + operandCount 0x01#8 = s.pc + 1#8 := BitVec.add_zero _
  rw [step_of_decode h ⟨hop, rfl, rfl⟩ rfl, ← hpc]
  rfl

/-- A fetch at `p` right after a byte was written: each of the three bytes is the written one where it was written,
and the byte that stood there before otherwise. -/
theorem State.fetch_setPc_write (s : State) (c v p : Byte) :
    ((s.write c v).setPc p).fetch =
      ⟨if c = p then v else s.read p, if c = p + 1#8 then v else s.read (p + 1#8),
        if c = p + 2#8 then v else s.read (p + 2#8)⟩ := by
  simp [State.fetch, State.read_write, eq_comm]

/-- Settles O49: ST's step is a write and the PC advance, and the next step fetches from the memory it leaves. -/
theorem storeToTheNextInstructionIsFetched : Obligations.StoreToTheNextInstructionIsFetched := by
  refine ⟨fun a b s h hb => ?_, fun a b s h hb ha hv => ?_, fun a b s h hb _ => ?_⟩
  · have h4 : s.pc + 3#8 + 1#8 = s.pc + 4#8 := BitVec.add_assoc ..
    have h5 : s.pc + 3#8 + 2#8 = s.pc + 5#8 := BitVec.add_assoc ..
    refine ⟨_, step_of_holds_st h hb, h, rfl, step_of_ready h, ?_⟩
    simp [State.fetch_setPc_write, h4, h5]
  · have h4 : s.pc + 3#8 + 1#8 = s.pc + 4#8 := BitVec.add_assoc ..
    have hop : (s.write (s.reg a) (s.reg b)).read (s.pc + 3#8) = 0x01#8 := by rw [ha, State.read_write_same, hv]
    exact ⟨_, _, step_of_holds_st h hb, step_of_read_hlt h hop, rfl, h4⟩
  · exact ⟨_, step_of_holds_st h hb, State.read_write_same s _ _, fun _ hc => State.read_write_other s _ hc, rfl⟩

end Sys2Proof.Machine
end

section
/-! PROOFS. The decoder read off the format tables (30_encoding.md R54, R55, R58): for each format, which constructor
stands behind an opcode of it, how its instructions are encoded, and which decoder of operand bytes it uses. The
statements about decoding split along `formatOf` and cite these. -/

namespace Sys2Proof

/-! The opcode map. -/

theorem mem_opcodeFormats_of_formatOf {op : Byte} {f : Format} (h : formatOf op = some f) :
    (op, f) ∈ opcodeFormats := by
  obtain ⟨l₁, l₂, hl, -⟩ := List.lookup_eq_some_iff.1 h
  simp [hl]

theorem formatOf_eq_none {op : Byte} : formatOf op = none ↔ op ∉ Machine.validOpcodes := by
  simp [formatOf, opcodeFormats, Machine.validOpcodes, List.lookup_eq_none_iff]

/-! The operand bytes: `decodeR` and `decodeRR` are never Invalid, and they answer an instruction exactly when the
format's register bytes are legal. -/

theorem exists_encodeReg_eq_iff {b : Byte} : (∃ r, b = encodeReg r) ↔ isRegByte b = true := by
  have h : (∃ r, decodeReg b = some r) ↔ isRegByte b = true := by
    rw [← Option.ne_none_iff_exists', Ne, decodeReg_eq_none]
    simp [isRegByte]
  simpa only [decodeReg_eq_some] using h

theorem decodeR_ne_invalid {op b1 o : Byte} {mk : Reg → Instr} : decodeR op b1 mk ≠ .invalid o := by
  unfold decodeR
  split <;> simp

theorem decodeRR_ne_invalid {op b1 b2 o : Byte} {mk : Reg → Reg → Instr} : decodeRR op b1 b2 mk ≠ .invalid o := by
  unfold decodeRR
  split <;> simp

theorem exists_decodeR_eq_instr {op b1 : Byte} {mk : Reg → Instr} :
    (∃ i, decodeR op b1 mk = .instr i) ↔ isRegByte b1 = true := by
  rw [← exists_encodeReg_eq_iff]
  constructor
  · rintro ⟨i, h⟩
    obtain ⟨r, hr, -⟩ := decodeR_eq_instr.1 h
    exact ⟨r, hr⟩
  · rintro ⟨r, hr⟩
    exact ⟨_, decodeR_eq_instr.2 ⟨r, hr, rfl⟩⟩

theorem exists_decodeRR_eq_instr {op b1 b2 : Byte} {mk : Reg → Reg → Instr} :
    (∃ i, decodeRR op b1 b2 mk = .instr i) ↔ isRegByte b1 = true ∧ isRegByte b2 = true := by
  rw [← exists_encodeReg_eq_iff, ← exists_encodeReg_eq_iff]
  constructor
  · rintro ⟨i, h⟩
    obtain ⟨a, b, ha, hb, -⟩ := decodeRR_eq_instr.1 h
    exact ⟨⟨a, ha⟩, b, hb⟩
  · rintro ⟨⟨a, ha⟩, b, hb⟩
    exact ⟨_, decodeRR_eq_instr.2 ⟨a, b, ha, hb, rfl⟩⟩

/-- A BadReg answer of a format with one register byte is about that byte. -/
theorem of_decodeR_eq_badReg {op b1 o b : Byte} {mk : Reg → Instr} (h : decodeR op b1 mk = .badReg o b) :
    o = op ∧ b = b1 ∧ 7 < b1.toNat := by
  unfold decodeR at h
  split at h
  · cases h
  · next hr =>
    cases h
    exact ⟨rfl, rfl, decodeReg_eq_none.1 hr⟩

/-- A BadReg answer of the two-register format is about the first byte, or about the second after a legal first. -/
theorem of_decodeRR_eq_badReg {op b1 b2 o b : Byte} {mk : Reg → Reg → Instr} (h : decodeRR op b1 b2 mk = .badReg o b) :
    o = op ∧ ((b = b1 ∧ 7 < b1.toNat) ∨ (b1.toNat ≤ 7 ∧ b = b2 ∧ 7 < b2.toNat)) := by
  by_cases h1 : 7 < b1.toNat
  · rw [decodeRR_of_gt h1] at h
    cases h
    exact ⟨rfl, .inl ⟨rfl, h1⟩⟩
  · by_cases h2 : 7 < b2.toNat
    · rw [decodeRR_of_le_gt (Nat.not_lt.1 h1) h2] at h
      cases h
      exact ⟨rfl, .inr ⟨Nat.not_lt.1 h1, rfl, h2⟩⟩
    · obtain ⟨i, hi⟩ := (exists_decodeRR_eq_instr (op := op) (mk := mk)).2
        ⟨decide_eq_true (Nat.not_lt.1 h1), decide_eq_true (Nat.not_lt.1 h2)⟩
      rw [hi] at h
      cases h

/-! Decoding by format. -/

variable {op : Byte}

theorem decode_of_formatOf_none (h : formatOf op = none) (b1 b2 : Byte) : decode op b1 b2 = .invalid op := by
  unfold decode
  split
  case h_18 => rfl
  all_goals cases h

theorem decode_of_f0 (h : formatOf op = some .f0) :
    ∃ i, encode i = [op] ∧ ∀ b1 b2, decode op b1 b2 = .instr i := by
  have hop : op = 0x09#8 ∨ op = 0x01#8 := by
    simpa [opcodeFormats] using mem_opcodeFormats_of_formatOf h
  rcases hop with rfl | rfl
  · exact ⟨.ret, rfl, fun _ _ => rfl⟩
  · exact ⟨.hlt, rfl, fun _ _ => rfl⟩

theorem decode_of_f1r (h : formatOf op = some .f1r) :
    ∃ mk : Reg → Instr, (∀ r, encode (mk r) = [op, encodeReg r]) ∧ ∀ b1 b2, decode op b1 b2 = decodeR op b1 mk := by
  have hop : op = 0x4D#8 ∨ op = 0x4C#8 ∨ op = 0x48#8 ∨ op = 0x50#8 ∨ op = 0x51#8 ∨ op = 0x52#8 ∨ op = 0x53#8 ∨
      op = 0x54#8 ∨ op = 0x43#8 ∨ op = 0x42#8 := by
    simpa [opcodeFormats] using mem_opcodeFormats_of_formatOf h
  rcases hop with rfl | rfl | rfl | rfl | rfl | rfl | rfl | rfl | rfl | rfl
  · exact ⟨.push, fun _ => rfl, fun _ _ => rfl⟩
  · exact ⟨.pop, fun _ => rfl, fun _ _ => rfl⟩
  · exact ⟨.call, fun _ => rfl, fun _ _ => rfl⟩
  · exact ⟨.jmp, fun _ => rfl, fun _ _ => rfl⟩
  · exact ⟨.jeq, fun _ => rfl, fun _ _ => rfl⟩
  · exact ⟨.jne, fun _ => rfl, fun _ _ => rfl⟩
  · exact ⟨.jlt, fun _ => rfl, fun _ _ => rfl⟩
  · exact ⟨.jgt, fun _ => rfl, fun _ _ => rfl⟩
  · exact ⟨.prn, fun _ => rfl, fun _ _ => rfl⟩
  · exact ⟨.pra, fun _ => rfl, fun _ _ => rfl⟩

theorem decode_of_f2rr (h : formatOf op = some .f2rr) :
    ∃ mk : Reg → Reg → Instr, (∀ a b, encode (mk a b) = [op, encodeReg a, encodeReg b]) ∧
      ∀ b1 b2, decode op b1 b2 = decodeRR op b1 b2 mk := by
  have hop : op = 0xA8#8 ∨ op = 0xAA#8 ∨ op = 0xA0#8 ∨ op = 0x9A#8 := by
    simpa [opcodeFormats] using mem_opcodeFormats_of_formatOf h
  rcases hop with rfl | rfl | rfl | rfl
  · exact ⟨.add, fun _ _ => rfl, fun _ _ => rfl⟩
  · exact ⟨.mul, fun _ _ => rfl, fun _ _ => rfl⟩
  · exact ⟨.cmp, fun _ _ => rfl, fun _ _ => rfl⟩
  · exact ⟨.st, fun _ _ => rfl, fun _ _ => rfl⟩

theorem decode_of_f2ri (h : formatOf op = some .f2ri) :
    ∃ mk : Reg → Byte → Instr, (∀ r imm, encode (mk r imm) = [op, encodeReg r, imm]) ∧
      ∀ b1 b2, decode op b1 b2 = decodeR op b1 fun r => mk r b2 := by
  obtain rfl : op = 0x99#8 := by simpa [opcodeFormats] using mem_opcodeFormats_of_formatOf h
  exact ⟨.ldi, fun _ _ => rfl, fun _ _ => rfl⟩

end Sys2Proof
end

section
/-! PROOFS. The encoding (30_encoding.md): decode and encode are inverse (O1, O2), the three answers of the decoder (O3,
O4, O5), the bytes beyond an instruction's length (O6) and the words the spec writes out (O7). -/

namespace Sys2Proof.Machine

/-- Settles O1, by the instruction's format: the operand bytes decode to the registers they were made from, and what
follows them is not read. -/
theorem decodeOfEncodeIsTheInstruction : Obligations.DecodeOfEncodeIsTheInstruction := by
  intro i u v
  cases i with
  | ret | hlt => rfl
  | push r | pop r | call r | jmp r | jeq r | jne r | jlt r | jgt r | prn r | pra r =>
    exact decodeR_eq_instr.2 ⟨r, rfl, rfl⟩
  | add a b | mul a b | cmp a b | st a b => exact decodeRR_eq_instr.2 ⟨a, b, rfl, rfl, rfl⟩
  | ldi r imm => exact decodeR_eq_instr.2 ⟨r, rfl, rfl⟩

open Laws in
/-- The per-instruction laws of the encoded length, for any instruction. -/
theorem encodedLength : ∀ i : Instr, EncodedLength.Statement i
  | .ldi r imm => EncodedLength.ldi r imm
  | .add a b => EncodedLength.add a b
  | .mul a b => EncodedLength.mul a b
  | .cmp a b => EncodedLength.cmp a b
  | .st a b => EncodedLength.st a b
  | .push r => EncodedLength.push r
  | .pop r => EncodedLength.pop r
  | .call r => EncodedLength.call r
  | .ret => EncodedLength.ret
  | .jmp r => EncodedLength.jmp r
  | .jeq r => EncodedLength.jeq r
  | .jne r => EncodedLength.jne r
  | .jlt r => EncodedLength.jlt r
  | .jgt r => EncodedLength.jgt r
  | .prn r => EncodedLength.prn r
  | .pra r => EncodedLength.pra r
  | .hlt => EncodedLength.hlt

/-- An instruction is as long as its opcode's two high bits say (R53). -/
theorem length_encode (i : Instr) : (encode i).length = 1 + (i.opcode >>> 6).toNat :=
  (encodedLength i).1

variable {op b1 b2 : Byte}

/-- Bytes that decode to an instruction begin with that instruction's encoding. -/
theorem encode_prefix_of_decode {i : Instr} (h : decode op b1 b2 = .instr i) : encode i <+: [op, b1, b2] := by
  cases hf : formatOf op with
  | none => simp [decode_of_formatOf_none hf] at h
  | some f =>
    cases f with
    | f0 =>
      obtain ⟨j, henc, hdec⟩ := decode_of_f0 hf
      rw [hdec] at h
      obtain rfl := Decoded.instr.inj h
      simp [henc]
    | f1r =>
      obtain ⟨mk, henc, hdec⟩ := decode_of_f1r hf
      obtain ⟨r, rfl, rfl⟩ := decodeR_eq_instr.1 (hdec b1 b2 ▸ h)
      simp [henc]
    | f2rr =>
      obtain ⟨mk, henc, hdec⟩ := decode_of_f2rr hf
      obtain ⟨a, b, rfl, rfl, rfl⟩ := decodeRR_eq_instr.1 (hdec b1 b2 ▸ h)
      simp [henc]
    | f2ri =>
      obtain ⟨mk, henc, hdec⟩ := decode_of_f2ri hf
      obtain ⟨r, rfl, rfl⟩ := decodeR_eq_instr.1 (hdec b1 b2 ▸ h)
      simp [henc]

/-- Settles O2: the three bytes begin with the encoding, whose length is the one the opcode gives. -/
theorem encodeOfDecodeGivesTheBytes : Obligations.EncodeOfDecodeGivesTheBytes := by
  intro op b1 b2 i h
  have hpre := encode_prefix_of_decode h
  obtain rfl : i.opcode = op := (List.cons_prefix_cons.1 hpre).1
  rw [← length_encode]
  exact ⟨rfl, List.prefix_iff_eq_take.1 hpre⟩

/-- Settles O3: by format, both sides ask for the same register bytes to be legal. -/
theorem decodableBytesAreTheWellFormedOnes : Obligations.DecodableBytesAreTheWellFormedOnes := by
  intro op b1 b2
  cases hf : formatOf op with
  | none => simp [wellFormed, hf, decode_of_formatOf_none hf]
  | some f =>
    cases f with
    | f0 =>
      obtain ⟨j, -, hdec⟩ := decode_of_f0 hf
      simp [wellFormed, hf, Format.operandsOk, hdec]
    | f1r =>
      obtain ⟨mk, -, hdec⟩ := decode_of_f1r hf
      simp [wellFormed, hf, Format.operandsOk, hdec, exists_decodeR_eq_instr]
    | f2rr =>
      obtain ⟨mk, -, hdec⟩ := decode_of_f2rr hf
      simp [wellFormed, hf, Format.operandsOk, hdec, exists_decodeRR_eq_instr]
    | f2ri =>
      obtain ⟨mk, -, hdec⟩ := decode_of_f2ri hf
      simp [wellFormed, hf, Format.operandsOk, hdec, exists_decodeR_eq_instr]

/-- An Invalid answer names the opcode, and is given exactly where the opcode has no format (R59). -/
theorem decode_eq_invalid {o : Byte} : decode op b1 b2 = .invalid o ↔ formatOf op = none ∧ o = op := by
  cases hf : formatOf op with
  | none => simp [decode_of_formatOf_none hf, eq_comm]
  | some f =>
    cases f with
    | f0 =>
      obtain ⟨j, -, hdec⟩ := decode_of_f0 hf
      simp [hdec]
    | f1r =>
      obtain ⟨mk, -, hdec⟩ := decode_of_f1r hf
      simp [hdec, decodeR_ne_invalid]
    | f2rr =>
      obtain ⟨mk, -, hdec⟩ := decode_of_f2rr hf
      simp [hdec, decodeRR_ne_invalid]
    | f2ri =>
      obtain ⟨mk, -, hdec⟩ := decode_of_f2ri hf
      simp [hdec, decodeR_ne_invalid]

theorem decode_eq_invalid_self : decode op b1 b2 = .invalid op ↔ op ∉ validOpcodes := by
  simp [decode_eq_invalid, formatOf_eq_none]

/-- No valid opcode has operand count 3 (R52, R59). -/
theorem notMem_validOpcodes_of_shiftRight_eq_three (h : op >>> 6 = 3) : op ∉ validOpcodes := by
  have hne : ∀ o ∈ validOpcodes, o >>> 6 ≠ 3 := by decide
  exact fun hop => hne op hop h

theorem ofNat_mem_validOpcodes {n : Nat} (h : n < 256) :
    BitVec.ofNat 8 n ∈ validOpcodes ↔ n ∈ validOpcodes.map BitVec.toNat := by
  rw [List.mem_map]
  constructor
  · intro hop
    exact ⟨_, hop, BitVec.toNat_ofNat n 8 ▸ Nat.mod_eq_of_lt h⟩
  · rintro ⟨op, hop, rfl⟩
    simpa using hop

/-- The bytes outside the opcode map are the 256 without the 17 different valid ones. -/
theorem length_filter_notMem_validOpcodes :
    ((List.range 256).filter fun n => BitVec.ofNat 8 n ∉ validOpcodes).length = 239 := by
  have hfilter : (Finset.range 256).filter (fun n => BitVec.ofNat 8 n ∉ validOpcodes) =
      Finset.range 256 \ (validOpcodes.map BitVec.toNat).toFinset := by
    ext n
    simp only [Finset.mem_filter, Finset.mem_sdiff, List.mem_toFinset, Finset.mem_range]
    exact and_congr_right fun h => not_congr (ofNat_mem_validOpcodes h)
  have hsub : (validOpcodes.map BitVec.toNat).toFinset ⊆ Finset.range 256 := by decide
  have hcard : (validOpcodes.map BitVec.toNat).toFinset.card = 17 := by decide
  calc ((List.range 256).filter fun n => BitVec.ofNat 8 n ∉ validOpcodes).length
    _ = ((Finset.range 256).filter fun n => BitVec.ofNat 8 n ∉ validOpcodes).card := rfl
    _ = 256 - 17 := by rw [hfilter, Finset.card_sdiff_of_subset hsub, Finset.card_range, hcard]

/-- Settles O4, with the opcode map for the decoder; the count is that of the bytes outside it. -/
theorem invalidOpcodesAreTheOther239 : Obligations.InvalidOpcodesAreTheOther239 := by
  refine ⟨fun _ _ _ => decode_eq_invalid_self, fun _ _ _ _ h => (decode_eq_invalid.1 h).2, ?_, fun _ _ _ h =>
    decode_eq_invalid_self.2 (notMem_validOpcodes_of_shiftRight_eq_three h)⟩
  simp only [decode_eq_invalid_self]
  exact length_filter_notMem_validOpcodes

/-- Settles O5: the formats with a register byte report as their operand decoder does, and F0 never reports one. -/
theorem badRegisterNamesTheFirstOffendingByte : Obligations.BadRegisterNamesTheFirstOffendingByte := by
  intro op b1 b2 o b h
  have hvalid : op ∈ validOpcodes := by
    by_contra hop
    simp [decode_of_formatOf_none (formatOf_eq_none.2 hop)] at h
  cases hf : formatOf op with
  | none => exact absurd hvalid (formatOf_eq_none.1 hf)
  | some f =>
    cases f with
    | f0 =>
      obtain ⟨j, -, hdec⟩ := decode_of_f0 hf
      simp [hdec] at h
    | f1r =>
      obtain ⟨mk, -, hdec⟩ := decode_of_f1r hf
      obtain ⟨rfl, rfl, hgt⟩ := of_decodeR_eq_badReg (hdec b1 b2 ▸ h)
      exact ⟨rfl, hvalid, hgt, .inl ⟨rfl, hgt, by simp⟩⟩
    | f2rr =>
      obtain ⟨mk, -, hdec⟩ := decode_of_f2rr hf
      obtain ⟨rfl, ⟨rfl, hgt⟩ | ⟨hle, rfl, hgt⟩⟩ := of_decodeRR_eq_badReg (hdec b1 b2 ▸ h)
      · exact ⟨rfl, hvalid, hgt, .inl ⟨rfl, hgt, by simp⟩⟩
      · exact ⟨rfl, hvalid, hgt, .inr ⟨hle, rfl, rfl⟩⟩
    | f2ri =>
      obtain ⟨mk, -, hdec⟩ := decode_of_f2ri hf
      obtain ⟨rfl, rfl, hgt⟩ := of_decodeR_eq_badReg (hdec b1 b2 ▸ h)
      exact ⟨rfl, hvalid, hgt, .inl ⟨rfl, hgt, by simp⟩⟩

theorem decode_congr_of_f0 (h : formatOf op = some .f0) (c1 c2 : Byte) : decode op b1 b2 = decode op c1 c2 := by
  obtain ⟨i, -, hdec⟩ := decode_of_f0 h
  rw [hdec, hdec]

theorem decode_congr_of_f1r (h : formatOf op = some .f1r) (c2 : Byte) : decode op b1 b2 = decode op b1 c2 := by
  obtain ⟨mk, -, hdec⟩ := decode_of_f1r h
  rw [hdec, hdec]

/-- Settles O6: a format's decoder does not read the bytes beyond its length, and a step runs what they decode to. -/
theorem bytesBeyondTheLengthAreIgnored : Obligations.BytesBeyondTheLengthAreIgnored := by
  refine ⟨fun op b1 b2 c1 c2 hf => decode_congr_of_f0 hf c1 c2, fun op b1 b2 c2 hf => decode_congr_of_f1r hf c2,
    fun op b1 b2 s i hf hdec hs hb => ?_, fun op b1 b2 s i hf hdec hs hb => ?_⟩
  · exact step_of_decode hs hb (decode_congr_of_f0 hf 0 0 ▸ hdec)
  · exact step_of_decode hs hb (decode_congr_of_f1r hf 0 ▸ hdec)

/-- Settles O7, each word by evaluating the decoder. -/
theorem wordsOfTheEncodingTablesDecode : Obligations.WordsOfTheEncodingTablesDecode := by
  unfold Obligations.WordsOfTheEncodingTablesDecode
  decide

end Sys2Proof.Machine
end

section
/-! PROOFS. The PC advance and the control-transfer set (O45): step 5 is the identity on the set, so `pc` after one of
its instructions is what the handler has set (40_cycle.md R70). -/

namespace Sys2Proof.Machine

theorem isControlTransfer_iff {op : Byte} : isControlTransfer op = true ↔ op ∈ controlTransferOpcodes := by
  simp [isControlTransfer, controlTransferOpcodes, or_assoc]

variable {op : Byte} {s t : State}

theorem State.sequencePc_of_mem (s : State) (h : op ∈ controlTransferOpcodes) : s.sequencePc op = s := by
  rw [State.sequencePc, if_pos (isControlTransfer_iff.2 h)]

theorem State.sequencePc_pc_of_notMem (s : State) (h : op ∉ controlTransferOpcodes) :
    (s.sequencePc op).pc = s.pc + 1#8 + op >>> 6 := by
  rw [State.sequencePc_pc, if_neg (mt isControlTransfer_iff.1 h), operandCount]

/-- The PC advance is by 1 to 4, so it never comes back to the same address. -/
theorem add_one_add_shiftRight_ne (pc op : Byte) : pc + 1#8 + op >>> 6 ≠ pc := by
  have hle : (op >>> 6).toNat ≤ 3 := by
    have := op.isLt
    simp [Nat.shiftRight_eq_div_pow]
    omega
  generalize op >>> 6 = n at hle
  bv_omega

/-- A control transfer ends in the state its handler leaves. -/
theorem eq_handler_of_controlTransfer {i : Instr} (h : isControlTransfer i.opcode = true) (he : exec i s = .next t) :
    t = handler i s := by
  rw [exec_eq_next.1 he, State.sequencePc_of_mem _ (isControlTransfer_iff.1 h)]

theorem State.jumpIf_pc_cases (s : State) (taken : Bool) (r : Reg) :
    (s.jumpIf taken r).pc = s.reg r ∨ (s.jumpIf taken r).pc = s.pc + 2#8 := by
  rw [State.jumpIf_pc]
  cases taken
  · exact .inr rfl
  · exact .inl rfl

/-- Settles O45: outside the set step 5 advances, inside it each handler's `pc` is read off. -/
theorem pcAdvanceSparesControlTransfers : Obligations.PcAdvanceSparesControlTransfers := by
  refine ⟨fun s op h => s.sequencePc_of_mem h, fun s op _ h => ?_, by decide,
    fun r s t he => eq_handler_of_controlTransfer rfl he ▸ rfl,
    fun r s t he => eq_handler_of_controlTransfer rfl he ▸ rfl,
    fun s t he => eq_handler_of_controlTransfer rfl he ▸ rfl, fun i s t hi he => ?_⟩
  · rw [State.sequencePc_pc_of_notMem s h]
    exact ⟨rfl, add_one_add_shiftRight_ne s.pc op⟩
  · cases i with
    | jeq r | jne r | jlt r | jgt r =>
      rw [eq_handler_of_controlTransfer rfl he]
      exact (s.jumpIf_pc_cases _ r).imp_left fun h => ⟨r, h, rfl⟩
    | _ => cases hi

end Sys2Proof.Machine
end

section
/-! PROOFS. The cycle (40_cycle.md): a ready core runs what its bytes decode to (O8, O15), a pending interrupt is
entered first (O9), a running core always steps (O13), and the PC advance by the encoded length (O46). -/

namespace Sys2Proof.Machine

variable {s t : State}

/-- Settles O8, the step of a ready core. -/
theorem stepRunsTheDecodedInstruction : Obligations.StepRunsTheDecodedInstruction :=
  fun _ _ _ _ _ h hb hd => step_of_decode h hb hd

/-- Settles O9: entry leaves a running state with IS = 0, and without a request the step is the dispatch of the three
bytes at `pc`. -/
theorem pendingInterruptIsEnteredBeforeTheFetch : Obligations.PendingInterruptIsEnteredBeforeTheFetch := by
  refine ⟨fun s hr h => ?_, fun s op b1 b2 hr h hb => ?_⟩
  · exact ⟨by rw [State.interruptEntry_run, hr], s.reg_is_interruptEntry, step_eq_step_interruptEntry hr h⟩
  · have hstep := (step_of_ready ⟨hr, h⟩).trans (State.fetchAndDispatch_of_holds hb)
    exact ⟨fun i hd => by rw [hstep, hd], fun o hd => by rw [hstep, hd], fun o b hd => by rw [hstep, hd]⟩

/-! The step is total while running (40_cycle.md R75). -/

/-- Dispatch always answers a next state, whatever the three bytes decode to. -/
theorem State.fetchAndDispatch_next (s : State) : ∃ t, s.fetchAndDispatch = .next t := by
  rw [State.fetchAndDispatch_of_holds s.holds_fetch]
  cases decode s.fetch.op s.fetch.b1 s.fetch.b2 with
  | instr i => exact exec_next s i
  | invalid o => exact ⟨_, rfl⟩
  | badReg o b => exact ⟨_, rfl⟩

theorem step_next_of_running (hr : s.run = .running) : ∃ t, step s = .next t :=
  step_of_running hr ▸ s.interruptCheck.fetchAndDispatch_next

/-- An instruction leaves the run state, or is HLT. -/
theorem exec_run_cases {i : Instr} (he : exec i s = .next t) : t.run = s.run ∨ t.run = .halted .hlt := by
  rw [exec_eq_next.1 he, State.sequencePc_run]
  by_cases h : i = .hlt
  · exact .inr (h ▸ rfl)
  · exact .inl (handler_run_of_ne_hlt s h)

/-- After a step the core still runs, or HLT or an exception has halted it. -/
theorem step_run_cases (h : step s = .next t) :
    t.run = .running ∨ t.run = .halted .hlt ∨ ∃ e, t.run = .halted (.raised e) := by
  obtain ⟨hr, ⟨i, -, he⟩ | ⟨e, rfl⟩⟩ := step_cases h
  · rw [← hr, ← State.interruptCheck_run s]
    exact (exec_run_cases he).imp_right .inl
  · exact .inr (.inr ⟨e, rfl⟩)

/-- Settles O13: the step is total while running, and a tick in another run state is the fault that names it. -/
theorem runningCoreAlwaysStepsAndNoOtherDoes : Obligations.RunningCoreAlwaysStepsAndNoOtherDoes := by
  refine ⟨fun s hr => ?_, fun s hr => ?_, fun s r hr => ?_⟩
  · obtain ⟨t, ht⟩ := step_next_of_running hr
    exact ⟨t, ht, step_run_cases ht⟩
  · rw [step, State.tick, hr]
  · rw [step, State.tick, hr]

/-! An instruction placed at `pc`. -/

theorem decodeTableWord_eq_some {nbits w : Nat} {i : Instr} :
    decodeTableWord nbits w = some i ↔
      decode (tableByte nbits w 0) (tableByte nbits w 1) (tableByte nbits w 2) = .instr i := by
  unfold decodeTableWord
  split <;> simp_all

theorem State.ready_placeInstr (s : State) (nbits w : Nat) : (s.placeInstr nbits w).Ready :=
  ⟨rfl, State.reg_setReg_same _ Reg.is _⟩

/-- The three addresses of a fetch differ modulo 256, so no placed byte overwrites another. -/
theorem State.holds_placeInstr (s : State) (nbits w : Nat) :
    (s.placeInstr nbits w).Holds (tableByte nbits w 0) (tableByte nbits w 1) (tableByte nbits w 2) := by
  have h01 : s.pc ≠ s.pc + 1#8 := by bv_omega
  have h02 : s.pc ≠ s.pc + 2#8 := by bv_omega
  have h12 : s.pc + 1#8 ≠ s.pc + 2#8 := by bv_omega
  simp [State.Holds, State.placeInstr, State.read_write, h01, h02, h12]

/-- Settles O15: the placed state is ready and holds the bytes of the word at its `pc`. -/
theorem placedInstructionIsTheNextStep : Obligations.PlacedInstructionIsTheNextStep :=
  fun s nbits w _ h =>
    ⟨step_of_decode (s.ready_placeInstr nbits w) (s.holds_placeInstr nbits w) (decodeTableWord_eq_some.1 h), rfl⟩

/-! The PC advance outside the control-transfer set. -/

/-- A handler outside the control-transfer set leaves `pc` to step 5 (40_cycle.md R69). -/
theorem handler_pc_of_notMem {i : Instr} (h : i.opcode ∉ controlTransferOpcodes) : (handler i s).pc = s.pc := by
  cases i with
  | call r | ret | jmp r | jeq r | jne r | jlt r | jgt r => exact absurd (isControlTransfer_iff.1 rfl) h
  | _ => rfl

/-- Settles O46: step 5 adds one and the opcode's operand count, which is the encoded length (R53). -/
theorem otherInstructionsAdvanceByTheirLength : Obligations.OtherInstructionsAdvanceByTheirLength := by
  intro i s t h he
  rw [exec_eq_next.1 he, State.sequencePc_pc_of_notMem _ h, handler_pc_of_notMem h, length_encode, BitVec.ofNat_add,
    BitVec.ofNat_toNat, BitVec.setWidth_eq, BitVec.add_assoc]

end Sys2Proof.Machine
end

section
/-! PROOFS. Executions with a fair clock (40_cycle.md R74): until the clock ticks or the host stops it, a running
machine changes in R6 alone (O57), and every finite run goes on as a fair execution (O59). -/

namespace Sys2Proof.Machine

/-! The states a running machine passes through while it waits for a tick are its own with R6 replaced. -/

theorem State.setReg_setReg_same (s : State) (r : Reg) (v w : Byte) : (s.setReg r v).setReg r w = s.setReg r w := by
  simp [State.setReg]

theorem State.setReg_reg_self (s : State) (r : Reg) : s.setReg r (s.reg r) = s := by
  simp [State.setReg, State.reg, Vector.get_eq_getElem]

/-- At instant `m` a tick runs a cycle, or `stop()` halts the machine. -/
def CycleOrStop (ev : Nat → Option Event) (st : Nat → State) (m : Nat) : Prop :=
  (ev m = some .tick ∧ step (st m) = .next (st (m + 1))) ∨
    (ev m = some (.env .stop) ∧ st (m + 1) = (st m).setRun (.halted .externalStop))

variable {ev : Nat → Option Event} {st : Nat → State} {n : Nat}

/-- At an instant with neither a tick nor a `stop()` a running machine changes in R6 at most. -/
theorem IsExecution.cycleOrStop_or_setReg (h : IsExecution ev st) (hr : (st n).run = .running) :
    CycleOrStop ev st n ∨
      (¬(ev n = some .tick ∨ ev n = some (.env .stop)) ∧ ∃ v, st (n + 1) = (st n).setReg Reg.is v) := by
  rcases h.instant_of_running hr with htick | hstop | ⟨hev, hst⟩ | ⟨v, -, hev, hst⟩
  · exact .inl (.inl htick)
  · exact .inl (.inr hstop)
  · exact .inr ⟨by simp [hev], (st n).reg Reg.is, by rw [hst, State.setReg_reg_self]⟩
  · exact .inr ⟨by simp [hev], v, hst⟩

/-- The first tick or `stop()` from instant `n` on finds the machine as it was, but for R6; by induction on how far
ahead one is known to come. -/
theorem IsExecution.exists_cycleOrStop (h : IsExecution ev st) {d : Nat} (hr : (st n).run = .running)
    (hd : ev (n + d) = some .tick ∨ ev (n + d) = some (.env .stop)) :
    ∃ m v, n ≤ m ∧ st m = (st n).setReg Reg.is v ∧ CycleOrStop ev st m := by
  induction d generalizing n with
  | zero =>
    rcases h.cycleOrStop_or_setReg hr with hnow | ⟨hquiet, -⟩
    · exact ⟨n, (st n).reg Reg.is, Nat.le_refl n, (State.setReg_reg_self ..).symm, hnow⟩
    · exact absurd hd hquiet
  | succ d ih =>
    rcases h.cycleOrStop_or_setReg hr with hnow | ⟨-, v, hv⟩
    · exact ⟨n, (st n).reg Reg.is, Nat.le_refl n, (State.setReg_reg_self ..).symm, hnow⟩
    · have hr' : (st (n + 1)).run = .running := by rw [hv, State.setReg_run, hr]
      obtain ⟨m, w, hle, hm, hnow⟩ := ih hr' (by rwa [Nat.add_right_comm])
      exact ⟨m, w, by omega, by rw [hm, hv, State.setReg_setReg_same], hnow⟩

/-- Under a fair clock the first tick or `stop()` comes, and finds the machine as it was, but for R6. -/
theorem FairClock.exists_cycleOrStop (hf : FairClock ev st) (h : IsExecution ev st) (hr : (st n).run = .running) :
    ∃ m v, n ≤ m ∧ st m = (st n).setReg Reg.is v ∧ CycleOrStop ev st m := by
  obtain ⟨m, hle, hm⟩ := hf n hr
  obtain ⟨d, rfl⟩ := Nat.exists_eq_add_of_le hle
  exact h.exists_cycleOrStop hr hm

/-- An execution that never halts keeps running: a tick leaves the machine running or halted, `stop()` halts it. -/
theorem IsExecution.running_of_neverHalts (h : IsExecution ev st) (hnh : NeverHalts st) (hr : (st n).run = .running)
    {k : Nat} (hk : n ≤ k) : (st k).run = .running := by
  induction k, hk using Nat.le_induction with
  | base => exact hr
  | succ k _ ih =>
    rcases h.cycleOrStop_or_setReg ih with (⟨-, hstep⟩ | ⟨-, hst⟩) | ⟨-, v, hv⟩
    · rcases step_run_cases hstep with hrun | hhlt | ⟨e, hexc⟩
      · exact hrun
      · exact absurd hhlt (hnh (k + 1) _)
      · exact absurd hexc (hnh (k + 1) _)
    · exact absurd (by rw [hst, State.setRun_run]) (hnh (k + 1) .externalStop)
    · rw [hv, State.setReg_run, ih]

/-- Settles O57: the first tick or `stop()` finds the machine changed in R6 alone; one that never halts is still
running at every later instant, and the `stop()` is excluded. -/
theorem fairClockTakesAnotherCycle : Obligations.FairClockTakesAnotherCycle := by
  refine ⟨fun ev st n h hf hr => ?_, fun ev st n h hf hr hnh k hk => ?_⟩
  · obtain ⟨m, v, hle, hm, hnow⟩ := hf.exists_cycleOrStop h hr
    have hregs : SameRegsBut [Reg.is] (st n) (st m) := fun q hq =>
      hm ▸ State.reg_setReg_other (st n) v (by simpa using hq)
    have hrun : (st m).run = (st n).run := hm ▸ State.setReg_run ..
    exact ⟨m, hle, hrun.trans hr, hregs, hm ▸ State.setReg_pc .., hm ▸ State.setReg_fl ..,
      fun a => hm ▸ State.read_setReg .., ⟨hrun, hm ▸ State.setReg_out .., hm ▸ State.setReg_reports ..⟩, hnow⟩
  · obtain ⟨m, -, hle, -, htick | ⟨-, hst⟩⟩ := hf.exists_cycleOrStop h (h.running_of_neverHalts hnh hr hk)
    · exact ⟨m, hle, h.running_of_neverHalts hnh hr (hk.trans hle), htick⟩
    · exact absurd (by rw [hst, State.setRun_run]) (hnh (m + 1) .externalStop)

/-! After a finite run the clock alone goes on: a tick at every instant while the machine runs, nothing otherwise. -/

/-- The clock alone: a tick while the machine runs, nothing otherwise. -/
def State.clockEvent (s : State) : Option Event := if s.run = .running then some .tick else none

/-- The state after an instant at which the clock alone acts. -/
def State.afterClock (s : State) : State := (nextState (instantStep s.clockEvent s)).getD s

theorem State.clockEvent_of_running {s : State} (hr : s.run = .running) : s.clockEvent = some .tick := if_pos hr

/-- The clock's event always has its effect: a running core has a step. -/
theorem instantStep_clockEvent (s : State) : instantStep s.clockEvent s = .next s.afterClock := by
  obtain ⟨t, ht⟩ : ∃ t, instantStep s.clockEvent s = .next t := by
    by_cases hr : s.run = .running
    · rw [State.clockEvent_of_running hr]
      exact step_next_of_running hr
    · exact ⟨s, by rw [State.clockEvent, if_neg hr, instantStep_none]⟩
  rw [State.afterClock, ht]
  rfl

/-- The states of the clock acting alone from `s` on. -/
def State.clockRun (s : State) : Nat → State
  | 0 => s
  | n + 1 => (s.clockRun n).afterClock

theorem State.isExecution_clockRun (s : State) : IsExecution (fun n => (s.clockRun n).clockEvent) s.clockRun :=
  fun n => instantStep_clockEvent (s.clockRun n)

theorem State.fairClock_clockRun (s : State) : FairClock (fun n => (s.clockRun n).clockEvent) s.clockRun :=
  fun n hr => ⟨n, Nat.le_refl n, .inl (State.clockEvent_of_running hr)⟩

/-- Settles O59, by induction on the schedule: the clock alone goes on from the last state, and each event of the
schedule is put before an execution that begins with its effect. -/
theorem everyFiniteRunExtendsToAFairExecution : Obligations.EveryFiniteRunExtendsToAFairExecution := by
  intro es s t hs
  induction es generalizing s with
  | nil =>
    obtain rfl := Host.Outcome.next.inj hs
    exact ⟨_, _, s.isExecution_clockRun, s.fairClock_clockRun, rfl, by simp, rfl⟩
  | cons e es ih =>
    obtain ⟨u, hu, hrest⟩ := runSchedule_cons_eq_next.1 hs
    obtain ⟨ev, st, hex, hfair, rfl, hev, hend⟩ := ih u hrest
    refine ⟨_, _, hex.cons hu, hfair.cons hu, rfl, fun k hk => ?_, hend⟩
    cases k with
    | zero => rfl
    | succ k => exact hev k (Nat.lt_of_succ_lt_succ hk)

end Sys2Proof.Machine
end

section
/-! PROOFS. The transfer instructions LDI and ST (O16, O17; 41_transfer.md), with what every instruction statement is
assembled from: the step a decoder's answer gives, and `exec` as the handler and a `pc` moved by the encoded length. -/

namespace Sys2Proof.Machine

variable {op b1 b2 b : Byte} {i : Instr}

theorem runsAs_of_decode (hd : decode op b1 b2 = .instr i) : RunsAs op b1 b2 i :=
  fun _ h hb => step_of_decode h hb hd

/-- A BadReg answer of the decoder is the step that raises BadRegister (60_exceptions.md R102, R103). -/
theorem raisesBadRegister_of_decode (hd : decode op b1 b2 = .badReg op b) : RaisesBadRegister op b1 b2 b := by
  intro s h hb
  have hstep : step s = .next (s.raise (.badRegister op b)) := by
    rw [step_of_ready h, State.fetchAndDispatch_of_holds hb, hd]
  exact ⟨_, hstep, rfl, rfl, rfl, rfl, rfl, fun _ _ => rfl, fun _ => rfl⟩

/-- Step 5 changes `pc` alone. -/
theorem State.sequencePc_eq_setPc (s : State) (op : Byte) : s.sequencePc op = s.setPc (s.sequencePc op).pc := by
  apply State.ext_fields <;> simp

/-- Outside the control-transfer set an instruction is its handler, with `pc` moved by the encoded length. -/
theorem exec_eq_setPc_length (s : State) (h : isControlTransfer i.opcode = false) :
    exec i s = .next ((handler i s).setPc (s.pc + BitVec.ofNat 8 (encode i).length)) := by
  have hop : i.opcode ∉ controlTransferOpcodes := mt isControlTransfer_iff.2 (Bool.eq_false_iff.1 h)
  have he := exec_eq_handler i s
  rw [he, State.sequencePc_eq_setPc, otherInstructionsAdvanceByTheirLength i s _ hop he]

/-- Settles O16: byte 1 alone is decoded as a register, and the handler is one register write. -/
theorem ldiLoadsTheImmediate : Obligations.LdiLoadsTheImmediate := by
  refine ⟨fun r imm => runsAs_of_decode (decodeR_eq_instr.2 ⟨r, rfl, rfl⟩),
    fun b1 b2 h => raisesBadRegister_of_decode (decodeR_of_gt h), fun r imm s => ?_⟩
  have hframe : SameRegsBut [r] s (s.setReg r imm) := fun q hq =>
    State.reg_setReg_other s imm (List.ne_of_not_mem_cons hq)
  exact ⟨_, exec_eq_setPc_length s rfl, State.reg_setReg_same s r imm, rfl, hframe, rfl, fun _ => rfl, rfl, rfl, rfl⟩

/-- Settles O17: byte 1 is decoded before byte 2, and the handler is one memory write. -/
theorem stStoresTheRegisterAtTheAddress : Obligations.StStoresTheRegisterAtTheAddress := by
  refine ⟨fun a b => runsAs_of_decode (decodeRR_eq_instr.2 ⟨a, b, rfl, rfl, rfl⟩),
    fun b1 b2 h => raisesBadRegister_of_decode (decodeRR_of_gt h),
    fun b1 b2 h1 h2 => raisesBadRegister_of_decode (decodeRR_of_le_gt h1 h2), fun a b s => ?_⟩
  have hframe : SameMemoryBut (s.reg a) s (s.write (s.reg a) (s.reg b)) := fun _ => State.read_write_other s (s.reg b)
  exact ⟨_, exec_eq_setPc_length s rfl, State.read_write_same s _ _, hframe, rfl, fun _ _ => rfl, rfl, rfl, rfl, rfl⟩

end Sys2Proof.Machine
end

section
/-! PROOFS. The ALU instructions ADD, MUL and CMP (O18, O19, O20; 42_alu.md): what the three operations compute, the
steps the two-register format gives, and the state a single register write leaves. -/

namespace Sys2Proof.Machine

/-! The operations of R78 and R79. -/

theorem toNat_aluAdd (a b : Byte) : (aluAdd a b).toNat = (a.toNat + b.toNat) % 256 := BitVec.toNat_ofNat _ 8

theorem toNat_aluMul (a b : Byte) : (aluMul a b).toNat = (a.toNat * b.toNat) % 256 := BitVec.toNat_ofNat _ 8

theorem compareFlags_of_eq {a b : Byte} (h : a = b) : compareFlags a b = 0x01#8 := if_pos h

theorem compareFlags_of_gt {a b : Byte} (h : b.toNat < a.toNat) : compareFlags a b = 0x02#8 := by
  have hne : a ≠ b := fun e => h.ne (congrArg BitVec.toNat e.symm)
  rw [compareFlags, if_neg hne, if_pos h]

theorem compareFlags_of_lt {a b : Byte} (h : a.toNat < b.toNat) : compareFlags a b = 0x04#8 := by
  have hne : a ≠ b := fun e => h.ne (congrArg BitVec.toNat e)
  rw [compareFlags, if_neg hne, if_neg h.asymm]

/-! The two-register format (30_encoding.md R61): two legal register bytes run the instruction, the first illegal one
raises BadRegister. -/

section TwoRegisterFormat

variable {op : Byte} {mk : Reg → Reg → Instr} (hd : ∀ b1 b2, decode op b1 b2 = decodeRR op b1 b2 mk)
include hd

theorem runsAs_of_decodeRR (a b : Reg) : RunsAs op (encodeReg a) (encodeReg b) (mk a b) :=
  runsAs_of_decode ((hd _ _).trans (decodeRR_eq_instr.2 ⟨a, b, rfl, rfl, rfl⟩))

theorem raisesBadRegister_first_of_decodeRR (b1 b2 : Byte) (h : 7 < b1.toNat) : RaisesBadRegister op b1 b2 b1 :=
  raisesBadRegister_of_decode ((hd b1 b2).trans (decodeRR_of_gt h))

theorem raisesBadRegister_second_of_decodeRR (b1 b2 : Byte) (h1 : b1.toNat ≤ 7) (h2 : 7 < b2.toNat) :
    RaisesBadRegister op b1 b2 b2 :=
  raisesBadRegister_of_decode ((hd b1 b2).trans (decodeRR_of_le_gt h1 h2))

end TwoRegisterFormat

/-- An instruction whose handler is one register write changes that register and `pc` alone. -/
theorem exec_frame_of_handler_setReg {i : Instr} {s : State} {a : Reg} {v : Byte}
    (hc : isControlTransfer i.opcode = false) (hh : handler i s = s.setReg a v) :
    ∃ t, exec i s = .next t ∧ t.reg a = v ∧ t.pc = s.pc + BitVec.ofNat 8 (encode i).length ∧ SameRegsBut [a] s t ∧
      t.fl = s.fl ∧ SameMemory s t ∧ SameOutputs s t := by
  have hframe : SameRegsBut [a] s (s.setReg a v) := fun q hq =>
    State.reg_setReg_other s v (List.ne_of_not_mem_cons hq)
  have he := exec_eq_setPc_length s hc
  rw [hh] at he
  exact ⟨_, he, State.reg_setReg_same s a v, rfl, hframe, rfl, fun _ => rfl, rfl, rfl, rfl⟩

/-- Settles O18: the handler writes `aluAdd`, the exact sum modulo 256, to the first register. -/
theorem addWritesTheSumModulo256 : Obligations.AddWritesTheSumModulo256 := by
  have hd : ∀ b1 b2, decode 0xA8#8 b1 b2 = decodeRR 0xA8#8 b1 b2 .add := fun _ _ => rfl
  refine ⟨runsAs_of_decodeRR hd, raisesBadRegister_first_of_decodeRR hd, raisesBadRegister_second_of_decodeRR hd,
    fun a b s => ?_⟩
  obtain ⟨t, he, hreg, hframe⟩ := exec_frame_of_handler_setReg (i := .add a b) (s := s) rfl rfl
  exact ⟨t, he, hreg ▸ toNat_aluAdd _ _, hframe⟩

/-- Settles O19: the handler writes `aluMul`, the exact product modulo 256, to the first register. -/
theorem mulWritesTheProductModulo256 : Obligations.MulWritesTheProductModulo256 := by
  have hd : ∀ b1 b2, decode 0xAA#8 b1 b2 = decodeRR 0xAA#8 b1 b2 .mul := fun _ _ => rfl
  refine ⟨runsAs_of_decodeRR hd, raisesBadRegister_first_of_decodeRR hd, raisesBadRegister_second_of_decodeRR hd,
    fun a b s => ?_⟩
  obtain ⟨t, he, hreg, hframe⟩ := exec_frame_of_handler_setReg (i := .mul a b) (s := s) rfl rfl
  exact ⟨t, he, hreg ▸ toNat_aluMul _ _, hframe⟩

/-- Settles O20: the handler overwrites FL, with the one flag each of the three comparisons gives. -/
theorem cmpSetsExactlyOneFlag : Obligations.CmpSetsExactlyOneFlag := by
  have hd : ∀ b1 b2, decode 0xA0#8 b1 b2 = decodeRR 0xA0#8 b1 b2 .cmp := fun _ _ => rfl
  refine ⟨runsAs_of_decodeRR hd, raisesBadRegister_first_of_decodeRR hd, raisesBadRegister_second_of_decodeRR hd,
    fun a b s => ⟨_, exec_eq_setPc_length s rfl, ?equal, ?greater, ?less, rfl, ?registers, ?memory, rfl, rfl, rfl⟩⟩
  case equal => exact compareFlags_of_eq
  case greater => exact compareFlags_of_gt
  case less => exact compareFlags_of_lt
  case registers => exact fun _ _ => rfl
  case memory => exact fun _ => rfl

end Sys2Proof.Machine
end

section
/-! PROOFS. The stack instructions PUSH and POP (O21, O22; 43_stack.md) and the pair PUSH r, POP r (O47), which is
composed from what the two statements say and looks at neither handler again. -/

namespace Sys2Proof.Machine

/-! The one-register format (30_encoding.md R61): a legal register byte runs the instruction, an illegal one raises
BadRegister. -/

section OneRegisterFormat

variable {op : Byte} {mk : Reg → Instr} (hd : ∀ b1 b2, decode op b1 b2 = decodeR op b1 mk)
include hd

theorem runsAs_of_decodeR (r : Reg) (b2 : Byte) : RunsAs op (encodeReg r) b2 (mk r) :=
  runsAs_of_decode ((hd _ b2).trans (decodeR_eq_instr.2 ⟨r, rfl, rfl⟩))

theorem raisesBadRegister_of_decodeR (b1 b2 : Byte) (h : 7 < b1.toNat) : RaisesBadRegister op b1 b2 b1 :=
  raisesBadRegister_of_decode ((hd b1 b2).trans (decodeR_of_gt h))

end OneRegisterFormat

theorem execList_cons_of_exec_eq_next {i : Instr} {s t : State} (h : exec i s = .next t) (rest : List Instr) :
    execList (i :: rest) s = execList rest t := by
  rw [execList, h]

/-- Settles O21: the handler reads `x[r]` before it lowers SP, so the pushed byte is the old value for R7 as well. -/
theorem pushStoresTheOldValueBelowSp : Obligations.PushStoresTheOldValueBelowSp := by
  have hd : ∀ b1 b2, decode 0x4D#8 b1 b2 = decodeR 0x4D#8 b1 .push := fun _ _ => rfl
  refine ⟨runsAs_of_decodeR hd, raisesBadRegister_of_decodeR hd,
    fun r s => ⟨_, exec_eq_setPc_length s rfl, ?sp, ?slot, ?memory, rfl, rfl, ?registers, rfl, rfl, rfl, rfl⟩⟩
  case sp => exact (State.reg_pushValue s (s.reg r) Reg.sp).trans (if_pos rfl)
  case slot => exact (State.read_pushValue s (s.reg r) s.pushAddr).trans (if_pos rfl)
  case memory => exact fun c hc => (State.read_pushValue s (s.reg r) c).trans (if_neg hc)
  case registers => exact fun q hq => (State.reg_pushValue s (s.reg r) q).trans (if_neg (List.ne_of_not_mem_cons hq))

/-- Settles O22: the handler writes `x[r]` after it raises SP, so POP R7 leaves the popped byte there. -/
theorem popLoadsTheByteAtSp : Obligations.PopLoadsTheByteAtSp := by
  have hd : ∀ b1 b2, decode 0x4C#8 b1 b2 = decodeR 0x4C#8 b1 .pop := fun _ _ => rfl
  refine ⟨runsAs_of_decodeR hd, raisesBadRegister_of_decodeR hd,
    fun r s => ⟨_, exec_eq_setPc_length s rfl, ?popped, ?sp, rfl, ?registers, rfl, fun _ => rfl, rfl, rfl, rfl⟩⟩
  case popped => exact State.reg_setReg_same s.popSp r s.popByte
  case sp =>
    intro hr
    calc (s.popSp.setReg r s.popByte).reg Reg.sp
      _ = s.popSp.reg Reg.sp := State.reg_setReg_other s.popSp s.popByte hr.symm
      _ = s.reg Reg.sp + 1#8 := (State.reg_popSp s Reg.sp).trans (if_pos rfl)
  case registers => exact fun q => handler_reg_of_notMem s (i := .pop r)

/-- Settles O47: POP reads the slot PUSH wrote, and raises SP back by the 1 it was lowered by; for R7 the byte it reads
is the SP from before the push, and overwrites the raised one. -/
theorem popAfterPushRestoresTheRegisters : Obligations.PopAfterPushRestoresTheRegisters := by
  intro r s
  obtain ⟨-, -, hpush⟩ := pushStoresTheOldValueBelowSp
  obtain ⟨u, hu, husp, huslot, humem, haddr, hupc, hureg, hufl, hurun, huout, hurep⟩ := hpush r s
  obtain ⟨-, -, hpop⟩ := popLoadsTheByteAtSp
  obtain ⟨t, ht, htpopped, htsp, htpc, htreg, htfl, htmem, htrun, htout, htrep⟩ := hpop r u
  have hlist : execList [.push r, .pop r] s = .next t := by
    rw [execList_cons_of_exec_eq_next hu, execList_cons_of_exec_eq_next ht, execList]
  refine ⟨t, hlist, ?registers, ?memory, ?pc, htfl.trans hufl, htrun.trans hurun, htout.trans huout, htrep.trans hurep⟩
  case registers =>
    intro q _
    by_cases hqr : q = r
    · rw [hqr, htpopped, husp, ← haddr, huslot]
    · by_cases hqsp : q = Reg.sp
      · have hr : r ≠ Reg.sp := fun h => hqr (hqsp.trans h.symm)
        rw [hqsp, htsp hr, husp, BitVec.sub_add_cancel]
      · rw [htreg q (by simp [hqr, hqsp]), hureg q (by simp [hqsp])]
  case memory => exact fun c hc => (htmem c).trans (humem c hc)
  case pc => rw [htpc, hupc, BitVec.add_assoc]; rfl

end Sys2Proof.Machine
end

section
/-! PROOFS. The control instructions (44_control.md): CALL and RET (O23, O24), the pair CALL r, RET (O48), which is
composed from what those two statements say, and the jumps (O25 to O29), which are one handler with five conditions. -/

namespace Sys2Proof.Machine

/-- In the control-transfer set an instruction is its handler: step 5 leaves the `pc` it has set (40_cycle.md R70). -/
theorem exec_eq_next_handler {i : Instr} (s : State) (h : isControlTransfer i.opcode = true) :
    exec i s = .next (handler i s) := by
  rw [exec_eq_handler, State.sequencePc_of_mem _ (isControlTransfer_iff.1 h)]

/-- Settles O23: the handler pushes `pc + 2` and then reads its target, so for R7 the target is the lowered SP. -/
theorem callPushesTheReturnAddressAndJumps : Obligations.CallPushesTheReturnAddressAndJumps := by
  have hd : ∀ b1 b2, decode 0x48#8 b1 b2 = decodeR 0x48#8 b1 .call := fun _ _ => rfl
  refine ⟨runsAs_of_decodeR hd, raisesBadRegister_of_decodeR hd,
    fun r s => ⟨_, exec_eq_next_handler s rfl, ?sp, ?slot, ?memory, rfl, ?pc, ?registers, rfl, rfl, rfl, rfl⟩⟩
  case sp => exact (State.reg_pushValue s s.afterTwoBytes Reg.sp).trans (if_pos rfl)
  case slot => exact (State.read_pushValue s s.afterTwoBytes s.pushAddr).trans (if_pos rfl)
  case memory => exact fun c hc => (State.read_pushValue s s.afterTwoBytes c).trans (if_neg hc)
  case pc => exact State.reg_pushValue s s.afterTwoBytes r
  case registers => exact fun q => handler_reg_of_notMem s (i := .call r)

/-- Settles O24: the handler reads the byte at SP before it raises SP, and neither byte after the opcode is decoded. -/
theorem retPopsThePc : Obligations.RetPopsThePc := by
  refine ⟨fun b1 b2 => runsAs_of_decode rfl,
    fun s => ⟨_, exec_eq_next_handler s rfl, rfl, ?sp, ?registers, rfl, fun _ => rfl, rfl, rfl, rfl⟩⟩
  case sp => exact (State.reg_popSp s Reg.sp).trans (if_pos rfl)
  case registers => exact fun q => handler_reg_of_notMem s (i := .ret)

/-- Settles O48: RET reads the slot CALL wrote, which holds the return address, and raises SP back by the 1 it was
lowered by; where CALL has jumped plays no part, so R7 is no special case. -/
theorem retAfterCallReturnsBehindTheCall : Obligations.RetAfterCallReturnsBehindTheCall := by
  intro r s
  obtain ⟨-, -, hcall⟩ := callPushesTheReturnAddressAndJumps
  obtain ⟨u, hu, husp, huslot, humem, haddr, -, hureg, hufl, hurun, huout, hurep⟩ := hcall r s
  obtain ⟨-, hret⟩ := retPopsThePc
  obtain ⟨t, ht, htpc, htsp, htreg, htfl, htmem, htrun, htout, htrep⟩ := hret u
  have hlist : execList [.call r, .ret] s = .next t := by
    rw [execList_cons_of_exec_eq_next hu, execList_cons_of_exec_eq_next ht, execList]
  refine ⟨t, hlist, ?pc, ?registers, ?memory, htfl.trans hufl, htrun.trans hurun, htout.trans huout, htrep.trans hurep⟩
  case pc => rw [htpc, husp, ← haddr, huslot]
  case registers =>
    intro q _
    by_cases hq : q = Reg.sp
    · rw [hq, htsp, husp, BitVec.sub_add_cancel]
    · rw [htreg q (by simp [hq]), hureg q (by simp [hq])]
  case memory => exact fun c hc => (htmem c).trans (humem c hc)

/-- A one-register control transfer whose handler is `jumpIf`, whole: encoding, exception, target and frame. -/
theorem jump_of_handler_eq_jumpIf {op : Byte} {mk : Reg → Instr} {taken : State → Bool}
    (hd : ∀ b1 b2, decode op b1 b2 = decodeR op b1 mk) (hc : ∀ r, isControlTransfer (mk r).opcode = true)
    (hh : ∀ r s, handler (mk r) s = s.jumpIf (taken s) r) :
    (∀ (r : Reg) (b2 : Byte), RunsAs op (encodeReg r) b2 (mk r)) ∧
    (∀ b1 b2 : Byte, 7 < b1.toNat → RaisesBadRegister op b1 b2 b1) ∧
    (∀ (r : Reg) (s : State), ∃ t, exec (mk r) s = .next t ∧
      t.pc = (if taken s = true then s.reg r else s.pc + 2#8) ∧ SameRegsBut [] s t ∧ t.fl = s.fl ∧ SameMemory s t ∧
        SameOutputs s t) := by
  refine ⟨runsAs_of_decodeR hd, raisesBadRegister_of_decodeR hd, fun r s => ?_⟩
  have he : exec (mk r) s = .next (s.jumpIf (taken s) r) := hh r s ▸ exec_eq_next_handler s (hc r)
  exact ⟨_, he, s.jumpIf_pc _ r, fun q _ => s.reg_jumpIf _ r q, s.jumpIf_fl _ r, s.read_jumpIf _ r, s.jumpIf_run _ r,
    s.jumpIf_out _ r, s.jumpIf_reports _ r⟩

/-- Settles O25: JMP is the jump that is always taken. -/
theorem jmpGoesToTheRegister : Obligations.JmpGoesToTheRegister :=
  jump_of_handler_eq_jumpIf (mk := .jmp) (taken := fun _ => true) (fun _ _ => rfl) (fun _ => rfl) fun _ _ => rfl

/-- Settles O26: JEQ is the jump taken on E. -/
theorem jeqJumpsExactlyWhenEqual : Obligations.JeqJumpsExactlyWhenEqual :=
  jump_of_handler_eq_jumpIf (mk := .jeq) (taken := State.flagE) (fun _ _ => rfl) (fun _ => rfl) fun _ _ => rfl

/-- Settles O27: JNE is the jump taken on the negation of E, which is true exactly when E is false. -/
theorem jneJumpsExactlyWhenNotEqual : Obligations.JneJumpsExactlyWhenNotEqual := by
  have h := jump_of_handler_eq_jumpIf (op := 0x52#8) (mk := .jne) (taken := fun s => !s.flagE) (fun _ _ => rfl)
    (fun _ => rfl) fun _ _ => rfl
  simpa only [Obligations.JneJumpsExactlyWhenNotEqual, Bool.not_eq_true'] using h

/-- Settles O28: JLT is the jump taken on L. -/
theorem jltJumpsExactlyWhenLess : Obligations.JltJumpsExactlyWhenLess :=
  jump_of_handler_eq_jumpIf (mk := .jlt) (taken := State.flagL) (fun _ _ => rfl) (fun _ => rfl) fun _ _ => rfl

/-- Settles O29: JGT is the jump taken on G. -/
theorem jgtJumpsExactlyWhenGreater : Obligations.JgtJumpsExactlyWhenGreater :=
  jump_of_handler_eq_jumpIf (mk := .jgt) (taken := State.flagG) (fun _ _ => rfl) (fun _ => rfl) fun _ _ => rfl

end Sys2Proof.Machine
end

section
/-! PROOFS. The output instructions PRN and PRA (O30, O31) and HLT (O32; 45_output_halt.md). PRN and PRA are one handler
with two event kinds. -/

namespace Sys2Proof.Machine

/-- A print, whole: encoding, exception, the one event and the frame; the byte sent is not looked at. -/
theorem print_of_handler_eq_emit {op : Byte} {mk : Reg → Instr} {kind : OutKind}
    (hd : ∀ b1 b2, decode op b1 b2 = decodeR op b1 mk) (hc : ∀ r, isControlTransfer (mk r).opcode = false)
    (hlen : ∀ r, (encode (mk r)).length = 2) (hh : ∀ r s, handler (mk r) s = s.emit kind (s.reg r)) :
    (∀ (r : Reg) (b2 : Byte), RunsAs op (encodeReg r) b2 (mk r)) ∧
    (∀ b1 b2 : Byte, 7 < b1.toNat → RaisesBadRegister op b1 b2 b1) ∧
    (∀ (r : Reg) (s : State), ∃ t, exec (mk r) s = .next t ∧
      t.out = s.out ++ [⟨kind, s.reg r⟩] ∧ t.pc = s.pc + 2#8 ∧ SameRegsBut [] s t ∧ t.fl = s.fl ∧ SameMemory s t ∧
        t.run = s.run ∧ t.reports = s.reports) := by
  refine ⟨runsAs_of_decodeR hd, raisesBadRegister_of_decodeR hd, fun r s => ?_⟩
  have he : exec (mk r) s = .next ((s.emit kind (s.reg r)).setPc (s.pc + 2#8)) := by
    rw [exec_eq_setPc_length s (hc r), hlen, hh]
  exact ⟨_, he, rfl, rfl, fun _ _ => rfl, rfl, fun _ => rfl, rfl, rfl⟩

/-- Settles O30: PRN is the print of kind Dec. -/
theorem prnEmitsTheDecimalEvent : Obligations.PrnEmitsTheDecimalEvent :=
  print_of_handler_eq_emit (mk := .prn) (fun _ _ => rfl) (fun _ => rfl) (fun _ => rfl) fun _ _ => rfl

/-- Settles O31: PRA is the print of kind Chr. -/
theorem praEmitsTheCharacterEvent : Obligations.PraEmitsTheCharacterEvent :=
  print_of_handler_eq_emit (mk := .pra) (fun _ _ => rfl) (fun _ => rfl) (fun _ => rfl) fun _ _ => rfl

/-- Settles O32: the handler writes the run state alone and step 5 the `pc`, and a halted state has no step (O13); a
pending interrupt is entered before the fetch, whatever byte stands at `pc`. -/
theorem hltHaltsAndStillAdvances : Obligations.HltHaltsAndStillAdvances := by
  obtain ⟨-, -, hfault⟩ := runningCoreAlwaysStepsAndNoOtherDoes
  refine ⟨fun b1 b2 => runsAs_of_decode rfl, fun s => ⟨_, exec_eq_setPc_length s rfl, rfl, rfl, ?registers, rfl, ?memory,
    rfl, rfl, hfault _ .hlt rfl⟩, fun s hr hpending _ => step_eq_step_interruptEntry hr hpending⟩
  case registers => exact fun _ _ => rfl
  case memory => exact fun _ => rfl

end Sys2Proof.Machine
end

section
/-! PROOFS. Exceptions and the stimulus (60_exceptions.md): the step that raises an exception (O10, O11), the same in a
cycle that has entered an interrupt (O12), what no instruction does (O44), and the stimulus (O38). -/

namespace Sys2Proof.Machine

variable {s t : State} {op b1 b2 : Byte}

/-- A refusal of the decoder is the step that raises it, and nothing else changes (60_exceptions.md R101, R102). -/
theorem step_eq_raise_of_decode {e : Exc} (h : s.Ready) (hb : s.Holds op b1 b2)
    (hd : decode op b1 b2 = .invalid op ∧ e = .invalidOpcode op ∨
      ∃ b, decode op b1 b2 = .badReg op b ∧ e = .badRegister op b) :
    step s = .next (s.raise e) := by
  rw [step_of_ready h, State.fetchAndDispatch_of_holds hb]
  obtain ⟨hinv, rfl⟩ | ⟨b, hbad, rfl⟩ := hd
  · rw [hinv]
  · rw [hbad]

/-- Settles O10: outside the opcode map the decoder answers Invalid, and the halted state has no step (O13). -/
theorem invalidOpcodeHaltsTheRun : Obligations.InvalidOpcodeHaltsTheRun := by
  intro s op b1 b2 h hb hop
  obtain ⟨-, -, hfault⟩ := runningCoreAlwaysStepsAndNoOtherDoes
  have hstep := step_eq_raise_of_decode h hb (.inl ⟨decode_eq_invalid_self.2 hop, rfl⟩)
  exact ⟨_, hstep, rfl, rfl, rfl, rfl, rfl, fun _ _ => rfl, fun _ => rfl, hfault _ _ rfl⟩

/-- Settles O11, by the format's operand decoder; no format's handler, so no flag, is looked at. -/
theorem badRegisterHaltsTheRun : Obligations.BadRegisterHaltsTheRun := by
  refine ⟨fun op b1 b2 hf h1 => ?_, fun op b1 b2 hf h1 h2 => ?_⟩
  · rcases hf with hf | hf | hf
    · obtain ⟨mk, -, hd⟩ := decode_of_f1r hf
      exact raisesBadRegister_of_decodeR hd b1 b2 h1
    · obtain ⟨mk, -, hd⟩ := decode_of_f2rr hf
      exact raisesBadRegister_first_of_decodeRR hd b1 b2 h1
    · obtain ⟨mk, -, hd⟩ := decode_of_f2ri hf
      exact raisesBadRegister_of_decode ((hd b1 b2).trans (decodeR_of_gt h1))
  · obtain ⟨mk, -, hd⟩ := decode_of_f2rr hf
    exact raisesBadRegister_second_of_decodeRR hd b1 b2 h1 h2

/-- Entry leaves a running machine ready: the cycle goes on to the fetch (40_cycle.md R65). -/
theorem State.ready_interruptEntry (hr : s.run = .running) : s.interruptEntry.Ready :=
  ⟨by rw [State.interruptEntry_run, hr], s.reg_is_interruptEntry⟩

/-- Settles O12: the cycle is the one of the state entry leaves, which is ready and raises the exception. -/
theorem exceptionInTheEntryCycleKeepsTheEntry : Obligations.ExceptionInTheEntryCycleKeepsTheEntry := by
  intro s op b1 b2 e hr hpending hb hd
  have hstep : step s = .next (s.interruptEntry.raise e) := by
    rw [step_eq_step_interruptEntry hr hpending]
    exact step_eq_raise_of_decode (State.ready_interruptEntry hr) hb hd
  refine ⟨_, hstep, rfl, ?reports, ?is, ?sp, fun _ _ => rfl, fun _ => rfl, rfl, ?fl⟩
  case reports => rw [State.raise_reports, State.interruptEntry_reports]
  case is => rw [State.reg_raise, State.reg_is_interruptEntry]
  case sp => rw [State.reg_raise, State.reg_interruptEntry, if_neg Reg.sp_ne_is, if_pos rfl]
  case fl => rw [State.raise_fl, State.interruptEntry_fl]

/-- Settles O44, from the handlers: step 5 touches neither the reports nor the run state. -/
theorem instructionsRaiseNothing : Obligations.InstructionsRaiseNothing := by
  refine fun i s => ⟨_, exec_eq_handler i s, ?reports, fun h => ?other, fun h => ?hlt⟩
  case reports => rw [State.sequencePc_reports, handler_reports]
  case other => rw [State.sequencePc_run, handler_run_of_ne_hlt s h]
  case hlt =>
    subst h
    rfl

/-- Settles O38: a stimulus that has an effect is one write of R6, and the second of two such writes wins. -/
theorem stimulusReplacesR6 : Obligations.StimulusReplacesR6 := by
  refine ⟨fun v s hv => ?_, fun v w s t hw ht => ?_, fun s => if_pos rfl⟩
  · have hframe : SameRegsBut [Reg.is] s (s.setReg Reg.is v) := fun q hq =>
      State.reg_setReg_other s v (List.ne_of_not_mem_cons hq)
    exact ⟨_, stimulus_eq_next.2 ⟨hv, rfl⟩, State.reg_setReg_same s Reg.is v, hframe, rfl, rfl, fun _ => rfl, rfl, rfl,
      rfl⟩
  · obtain ⟨-, rfl⟩ := stimulus_eq_next.1 ht
    rw [stimulus_eq_next.2 ⟨hw, rfl⟩, State.setReg_setReg_same]
    exact (stimulus_eq_next.2 ⟨hw, rfl⟩).symm

end Sys2Proof.Machine
end

section
/-! PROOFS. Interrupt entry (60_exceptions.md R110 to R113): the frame (O33), what else entry changes (O34) and where it
jumps when a push lands on the vector (O35). All three read the memory `State.read_pushFrame` describes. -/

namespace Sys2Proof.Machine

variable {s : State} {a : Byte}

/-- Entry jumps through the vector as the pushes have left it (60_exceptions.md R113). -/
theorem State.interruptEntry_pc (s : State) : s.interruptEntry.pc = s.interruptEntry.read Config.vectorAddr := rfl

/-- Settles O33: the nine addresses of the frame are different, so no push overwrites an earlier one. -/
theorem interruptEntryLeavesTheFrame : Obligations.InterruptEntryLeavesTheFrame := by
  intro s
  have hdistinct (j k : Byte) : s.reg 7 - j = s.reg 7 - k ↔ j = k := sub_right_inj
  simp [State.read_pushFrame, State.reg_interruptEntry, Reg.sp, Reg.is, hdistinct]

/-- `SP - k` is an address of the frame exactly for `k` from 1 to 9. -/
theorem inFrame_sub {sp k : Byte} : InFrame sp (sp - k) ↔ 1 ≤ k.toNat ∧ k.toNat ≤ 9 := by
  rw [InFrame, sub_sub_cancel]

/-- Outside the frame entry writes nothing. -/
theorem State.read_interruptEntry_of_not_inFrame (h : ¬InFrame (s.reg Reg.sp) a) :
    s.interruptEntry.read a = s.read a := by
  have hne (k : Byte) (hk : 1 ≤ k.toNat ∧ k.toNat ≤ 9) : a ≠ s.reg Reg.sp - k := by
    rintro rfl
    exact h (inFrame_sub.2 hk)
  rw [State.read_interruptEntry, State.read_pushFrame]
  simp [hne]

/-- Settles O34: outside the frame the nine pushes write nothing, and the two registers entry writes are R6 and SP. -/
theorem interruptEntryChangesNothingElse : Obligations.InterruptEntryChangesNothingElse := by
  intro s
  refine ⟨s.reg_is_interruptEntry, s.interruptEntry_pc, fun q hq => ?_,
    fun a ha => State.read_interruptEntry_of_not_inFrame ha, s.interruptEntry_fl, s.interruptEntry_run,
    s.interruptEntry_out, s.interruptEntry_reports⟩
  obtain ⟨his, hsp⟩ : q ≠ Reg.is ∧ q ≠ Reg.sp := by simpa using hq
  rw [State.reg_interruptEntry, if_neg his, if_neg hsp]

/-- The frame byte `k` below SP is the one entry jumps to when it lands on the vector. -/
theorem State.interruptEntry_pc_of_sp_eq {k v : Byte} (hsp : s.reg 7 = Config.vectorAddr + k)
    (hv : s.interruptEntry.read (s.reg 7 - k) = v) : s.interruptEntry.pc = v := by
  rw [State.interruptEntry_pc, ← hv, hsp, BitVec.add_sub_cancel]

/-- Settles O35: at nine values of SP a byte of the frame lies on the vector, at the others none does. -/
theorem pushOnTheVectorRedirectsTheEntry : Obligations.PushOnTheVectorRedirectsTheEntry := by
  intro s
  obtain ⟨h1, h2, h3, h4, h5, h6, h7, h8, -, h9, -⟩ := interruptEntryLeavesTheFrame s
  split_ifs with hF9 hFA hFB hFC hFD hFE hFF h00 h01
  · exact State.interruptEntry_pc_of_sp_eq hF9 h1
  · exact State.interruptEntry_pc_of_sp_eq hFA h2
  · exact State.interruptEntry_pc_of_sp_eq hFB h3
  · exact State.interruptEntry_pc_of_sp_eq hFC h4
  · exact State.interruptEntry_pc_of_sp_eq hFD h5
  · exact State.interruptEntry_pc_of_sp_eq hFE h6
  · exact State.interruptEntry_pc_of_sp_eq hFF h7
  · exact State.interruptEntry_pc_of_sp_eq h00 h8
  · rw [State.interruptEntry_pc_of_sp_eq h01 h9, h01]
    rfl
  · have hout : ¬InFrame (s.reg Reg.sp) Config.vectorAddr := by
      rw [InFrame, Config.vectorAddr, Reg.sp]
      bv_omega
    rw [State.interruptEntry_pc, State.read_interruptEntry_of_not_inFrame hout, Config.vectorAddr]

end Sys2Proof.Machine
end

section
/-! PROOFS. The return from an interrupt (O36; 60_exceptions.md R116). The frame is a list of bytes that stands in
memory from SP upwards; a POP takes the first of them, and a run of POPs takes as many as there are registers. -/

namespace Sys2Proof.Machine

/-- The bytes stand in memory from address `a` upwards, one after the other. -/
def State.HoldsFrom (s : State) (a : Byte) : List Byte → Prop
  | [] => True
  | v :: vs => s.read a = v ∧ s.HoldsFrom (a + 1#8) vs

/-- The frame of an interrupted state, from the top of the stack: the bytes of R111. -/
def State.frame (s : State) : List Byte :=
  [s.reg Reg.sp - 8#8, s.reg 6, s.reg 5, s.reg 4, s.reg 3, s.reg 2, s.reg 1, s.reg 0, s.pc]

/-- Nothing but `pc` and the registers of `dest` differs. -/
structure KeepsBut (dest : List Reg) (s t : State) : Prop where
  regs : SameRegsBut dest s t
  fl : t.fl = s.fl
  memory : SameMemory s t
  outputs : SameOutputs s t

variable {s t u : State} {a v : Byte} {vs : List Byte} {dest dest' : List Reg}

theorem KeepsBut.trans (h : KeepsBut dest s t) (h' : KeepsBut dest t u) : KeepsBut dest s u where
  regs q hq := (h'.regs q hq).trans (h.regs q hq)
  fl := h'.fl.trans h.fl
  memory a := (h'.memory a).trans (h.memory a)
  outputs := by
    obtain ⟨hrun, hout, hrep⟩ := h.outputs
    obtain ⟨hrun', hout', hrep'⟩ := h'.outputs
    exact ⟨hrun'.trans hrun, hout'.trans hout, hrep'.trans hrep⟩

theorem KeepsBut.mono (hsub : dest ⊆ dest') (h : KeepsBut dest s t) : KeepsBut dest' s t :=
  { h with regs := fun q hq => h.regs q fun hmem => hq (hsub hmem) }

theorem State.HoldsFrom.of_sameMemory (h : s.HoldsFrom a vs) (hmem : SameMemory s t) : t.HoldsFrom a vs := by
  induction vs generalizing a with
  | nil => trivial
  | cons v vs ih => exact ⟨(hmem a).trans h.1, ih h.2⟩

/-- A POP takes the first byte of the stack and leaves the rest above it. -/
theorem exec_pop_of_holdsFrom (r : Reg) (h : s.HoldsFrom (s.reg Reg.sp) (v :: vs)) :
    ∃ t, exec (.pop r) s = .next t ∧ t.reg r = v ∧ (r ≠ Reg.sp → t.reg Reg.sp = s.reg Reg.sp + 1#8) ∧
      t.HoldsFrom (s.reg Reg.sp + 1#8) vs ∧ KeepsBut [r, Reg.sp] s t := by
  obtain ⟨hv, hvs⟩ := h
  obtain ⟨-, -, hpop⟩ := popLoadsTheByteAtSp
  obtain ⟨t, ht, hpopped, hsp, -, hregs, hfl, hmem, hout⟩ := hpop r s
  exact ⟨t, ht, hpopped.trans hv, hsp, hvs.of_sameMemory hmem, hregs, hfl, hmem, hout⟩

/-- A run of POPs takes one byte of the stack for each register; a register popped more than once must find its byte
each time. -/
theorem execList_pop_of_holdsFrom {f : Reg → Byte} {rs : List Reg} (hsp : Reg.sp ∉ rs)
    (h : s.HoldsFrom (s.reg Reg.sp) (rs.map f ++ vs)) :
    ∃ t, (∀ rest, execList (rs.map .pop ++ rest) s = execList rest t) ∧ (∀ q ∈ rs, t.reg q = f q) ∧
      t.reg Reg.sp = s.reg Reg.sp + BitVec.ofNat 8 rs.length ∧ t.HoldsFrom (t.reg Reg.sp) vs ∧
      KeepsBut (Reg.sp :: rs) s t := by
  induction rs generalizing s with
  | nil => exact ⟨s, fun _ => rfl, by simp, by simp, h, fun _ _ => rfl, rfl, fun _ => rfl, rfl, rfl, rfl⟩
  | cons r rs ih =>
    obtain ⟨hr, hrs⟩ : Reg.sp ≠ r ∧ Reg.sp ∉ rs := by simpa using hsp
    obtain ⟨u, hu, hur, husp, hustack, hukeep⟩ := exec_pop_of_holdsFrom r h
    replace husp := husp hr.symm
    obtain ⟨t, ht, htregs, htsp, htstack, htkeep⟩ := ih hrs (husp ▸ hustack)
    refine ⟨t, fun rest => ?run, fun q hq => ?popped, ?sp, htstack, (hukeep.mono (by simp)).trans (htkeep.mono ?keep)⟩
    case run => exact (execList_cons_of_exec_eq_next hu _).trans (ht rest)
    case popped =>
      by_cases hqrs : q ∈ rs
      · exact htregs q hqrs
      · obtain rfl : q = r := (List.mem_cons.1 hq).resolve_right hqrs
        rw [htkeep.regs q (by simp [hr.symm, hqrs]), hur]
    case sp => rw [htsp, husp, List.length_cons, BitVec.add_assoc, Nat.add_comm, BitVec.ofNat_add]
    case keep => exact List.cons_subset_cons _ (List.subset_cons_self r rs)

/-- While the nine bytes read as entry left them, the frame stands from SP - 9 upwards. -/
theorem State.holdsFrom_frame {h : State}
    (hframe : ∀ a, InFrame (s.reg Reg.sp) a → h.read a = s.interruptEntry.read a) :
    h.HoldsFrom (s.reg Reg.sp - 9#8) s.frame := by
  have hread {k v : Byte} (hk : 1 ≤ k.toNat ∧ k.toNat ≤ 9) (hv : s.interruptEntry.read (s.reg 7 - k) = v) :
      h.read (s.reg Reg.sp - k) = v := (hframe _ (inFrame_sub.2 hk)).trans hv
  have hup (k : Byte) : s.reg Reg.sp - k + 1#8 = s.reg Reg.sp - (k - 1#8) := by bv_omega
  obtain ⟨h1, h2, h3, h4, h5, h6, h7, h8, -, h9, -⟩ := interruptEntryLeavesTheFrame s
  simp only [State.HoldsFrom, State.frame, hup]
  exact ⟨hread (by decide) h9, hread (by decide) h8, hread (by decide) h7, hread (by decide) h6, hread (by decide) h5,
    hread (by decide) h4, hread (by decide) h3, hread (by decide) h2, hread (by decide) h1, trivial⟩

/-- The registers of the frame but R6, which is popped into R5 and overwritten, in the order of their POPs. -/
def restoredRegs : List Reg := [5, 4, 3, 2, 1, 0]

theorem mem_sp_cons_restoredRegs {q : Reg} (h : q ≠ Reg.is) : q ∈ Reg.sp :: restoredRegs := by
  revert q; decide

/-- The sequence of R116 by its stages. -/
theorem returnSequence_eq :
    returnSequence = .pop Reg.sp :: .pop 5 :: (restoredRegs.map Instr.pop ++ [.ret]) := rfl

/-- Settles O36: POP R7 drops the frame's lowest byte, POP R5 its R6, six POPs restore the registers and RET the `pc`. -/
theorem returnSequenceRestoresTheInterruptedState : Obligations.ReturnSequenceRestoresTheInterruptedState := by
  intro s h hsp hframe
  have hstack : h.HoldsFrom (h.reg Reg.sp) s.frame := hsp ▸ State.holdsFrom_frame hframe
  obtain ⟨u, hu, husp, -, hustack, hukeep⟩ := exec_pop_of_holdsFrom Reg.sp hstack
  have hsp8 : h.reg Reg.sp + 1#8 = u.reg Reg.sp := by
    rw [hsp, husp]
    bv_omega
  obtain ⟨w, hw, -, hwsp, hwstack, hwkeep⟩ := exec_pop_of_holdsFrom 5 (hsp8 ▸ hustack)
  replace hwsp := hwsp (by decide)
  obtain ⟨x, hx, hxregs, hxsp, ⟨hxpc, -⟩, hxkeep⟩ :=
    execList_pop_of_holdsFrom (f := s.reg) (rs := restoredRegs) (vs := [s.pc]) (by decide) (hwsp ▸ hwstack)
  obtain ⟨-, hret⟩ := retPopsThePc
  obtain ⟨t, ht, htpc, htsp, htregs, htfl, htmem, htout⟩ := hret x
  have hrun : execList returnSequence h = .next t := by
    rw [returnSequence_eq, execList_cons_of_exec_eq_next hu, execList_cons_of_exec_eq_next hw, hx,
      execList_cons_of_exec_eq_next ht, execList]
  have hkeep : KeepsBut (Reg.sp :: restoredRegs) h t :=
    (((hukeep.mono (by decide)).trans (hwkeep.mono (by decide))).trans hxkeep).trans
      (KeepsBut.mono (by decide) ⟨htregs, htfl, htmem, htout⟩)
  refine ⟨t, hrun, htpc.trans hxpc, fun q hq => ?regs, hkeep.regs _ (by decide), hkeep.memory, hkeep.fl, hkeep.outputs⟩
  case regs =>
    rcases List.mem_cons.1 (mem_sp_cons_restoredRegs (List.ne_of_not_mem_cons hq)) with rfl | hmem
    · rw [htsp, hxsp, hwsp, husp, show restoredRegs.length = 6 from rfl]
      bv_omega
    · have hne : q ≠ Reg.sp := ne_of_mem_of_not_mem hmem (by decide)
      rw [htregs q (by simpa using hne), hxregs q hmem]

end Sys2Proof.Machine
end

section
/-! PROOFS. A pending interrupt under a fair clock (O58; 40_cycle.md R74): nothing that comes before the first tick or
`stop()` clears R6, so that tick enters the interrupt. -/

namespace Sys2Proof.Machine

variable {ev : Nat → Option Event} {st : Nat → State} {n : Nat}

/-- At instant `k` the clock ticks or the host calls `stop()`: the events `FairClock` promises one of. -/
abbrev TickOrStop (ev : Nat → Option Event) (k : Nat) : Prop := ev k = some .tick ∨ ev k = some (.env .stop)

/-- Until a tick or a `stop()` a running machine with a request pending only has R6 replaced by another nonzero byte. -/
theorem IsExecution.setReg_of_quiet (h : IsExecution ev st) (hr : (st n).run = .running)
    (hpending : (st n).reg Reg.is ≠ 0#8) {m : Nat} (hm : n ≤ m)
    (hquiet : ∀ k, n ≤ k → k < m → ¬TickOrStop ev k) :
    ∃ v, v ≠ 0#8 ∧ st m = (st n).setReg Reg.is v := by
  induction m, hm using Nat.le_induction with
  | base => exact ⟨_, hpending, (State.setReg_reg_self ..).symm⟩
  | succ m hm ih =>
    obtain ⟨v, hv, hst⟩ := ih fun k hk hkm => hquiet k hk (hkm.trans m.lt_succ_self)
    have hquiet' := hquiet m hm m.lt_succ_self
    have hr' : (st m).run = .running := by rw [hst, State.setReg_run, hr]
    rcases h.instant_of_running hr' with ⟨htick, -⟩ | ⟨hstop, -⟩ | ⟨-, hsame⟩ | ⟨w, hw, -, hset⟩
    · exact absurd (.inl htick) hquiet'
    · exact absurd (.inr hstop) hquiet'
    · exact ⟨v, hv, hsame.trans hst⟩
    · exact ⟨w, hw, by rw [hset, hst, State.setReg_setReg_same]⟩

/-- Under a fair clock there is a first tick or `stop()` from an instant at which the machine is running. -/
theorem FairClock.exists_first (hf : FairClock ev st) (hr : (st n).run = .running) :
    ∃ m, n ≤ m ∧ TickOrStop ev m ∧
      ∀ k, n ≤ k → k < m → ¬TickOrStop ev k := by
  classical
  have hex := hf n hr
  obtain ⟨hle, hev⟩ := Nat.find_spec hex
  exact ⟨Nat.find hex, hle, hev, fun k hk hlt hk' => Nat.find_min hex hlt ⟨hk, hk'⟩⟩

/-- Settles O58: the first tick or `stop()` finds the request still pending at the same `pc` and SP, and a tick then is
the cycle of the state entry leaves. -/
theorem pendingInterruptIsEventuallyEntered : Obligations.PendingInterruptIsEventuallyEntered := by
  intro ev st n h hf hr hpending
  obtain ⟨m, hle, hev, hquiet⟩ := hf.exists_first hr
  obtain ⟨v, hv, hst⟩ := h.setReg_of_quiet hr hpending hle hquiet
  have hrun : (st m).run = .running := by rw [hst, State.setReg_run, hr]
  have hpc : (st m).pc = (st n).pc := by rw [hst, State.setReg_pc]
  have his : (st m).reg Reg.is ≠ 0#8 := by rwa [hst, State.reg_setReg_same]
  have hsp : (st m).reg Reg.sp = (st n).reg Reg.sp := by rw [hst, State.reg_setReg_other _ _ Reg.sp_ne_is]
  refine ⟨m, hle, hrun, hpc, his, ?_⟩
  rcases hev with htick | hstop
  · have hstep : step (st m) = .next (st (m + 1)) := by
      have hm := h m
      rwa [htick] at hm
    have hentry := step_eq_step_interruptEntry hrun his
    obtain ⟨hslot, -⟩ := interruptEntryLeavesTheFrame (st m)
    exact .inl ⟨htick, hentry ▸ hstep, hsp ▸ hpc ▸ hslot⟩
  · have hm := h m
    rw [hstop] at hm
    obtain ⟨-, hhalt⟩ := hostStop_eq_next.1 hm
    exact .inr ⟨hstop, by rw [hhalt, State.setRun_run]⟩

end Sys2Proof.Machine
end

section
/-! PROOFS. The host's actions in each run state (O51), the boot order (O52) and the observation of an ended run (O56):
70_reset_and_hazards.md R126, R128, R129. -/

namespace Sys2Proof.Machine

variable {s : State}

/-- Outside Idle the host may neither write memory nor start the clock (R128, D13). -/
theorem host_refused_of_not_idle (h : s.run ≠ .idle) (a v : Byte) (image : List Byte) :
    hostPoke a v s = .refused .memoryNotIdle ∧ hostLoad image s = .refused .memoryNotIdle ∧
      hostStart s = .refused .startNotIdle :=
  ⟨if_pos h, if_pos h, if_pos h⟩

theorem hostStop_of_halted {r : HaltReason} (h : s.run = .halted r) : hostStop s = .refused .stopAfterHalt := by
  simp [hostStop, h]

/-- Settles O51: the actions with an effect by their characterizations, the refusals by the run state. -/
theorem hostActionsFollowTheRunState : Obligations.HostActionsFollowTheRunState := by
  refine ⟨fun a v s hr => ?poke, fun s hr => hostStart_eq_next.2 ⟨hr, rfl⟩,
    fun s hr => hostStop_eq_next.2 ⟨hr, rfl⟩, fun a v image s hr => host_refused_of_not_idle hr a v image,
    fun s r hr => hostStop_of_halted hr⟩
  case poke =>
    have hframe : SameMemoryBut a s (s.write a v) := fun _ => State.read_write_other s v
    exact ⟨_, hostPoke_eq_next.2 ⟨hr, rfl⟩, State.read_write_same s a v, hframe, fun _ _ => rfl, rfl, rfl, rfl, rfl, rfl⟩

/-- After the loader an address inside the image reads the image, every other one what it read before. -/
theorem State.read_writeBytes_loadAddr {image : List Byte} (hlen : image.length ≤ 256) (c : Byte) :
    (s.writeBytes Config.loadAddr image).read c =
      if c.toNat < image.length then image.getD c.toNat 0#8 else s.read c := by
  have h := State.read_writeBytes image s 0 c (by omega)
  simpa only [Nat.zero_le, true_and, Nat.zero_add, Nat.sub_zero, Config.loadAddr] using h

/-- From Idle, load then start leaves the loaded memory and a running machine (R126). -/
theorem runSchedule_load_start {image : List Byte} (hr : s.run = .idle) (hlen : image.length ≤ 256) :
    runSchedule [.env (.load image), .env .start] s =
      .next ((s.writeBytes Config.loadAddr image).setRun .running) := by
  obtain ⟨-, -, -, hrun, -⟩ := State.writeBytes_frame image s Config.loadAddr
  have hload : eventStep (.env (.load image)) s = .next (s.writeBytes Config.loadAddr image) :=
    hostLoad_eq_next.2 ⟨hr, hlen, rfl⟩
  have hstart : eventStep (.env .start) (s.writeBytes Config.loadAddr image) =
      .next ((s.writeBytes Config.loadAddr image).setRun .running) :=
    hostStart_eq_next.2 ⟨hrun.trans hr, rfl⟩
  exact runSchedule_cons_eq_next.2 ⟨_, hload, runSchedule_cons_eq_next.2 ⟨_, hstart, rfl⟩⟩

/-- Settles O52: loading writes memory alone and starting the run state alone, so the registers are those of reset and
memory is MEM_INIT overlaid by the image. -/
theorem bootStartsTheLoadedImageAtZero : Obligations.BootStartsTheLoadedImageAtZero := by
  intro gpr memInit image hlen
  obtain ⟨hx, hpc, hfl, -⟩ := State.writeBytes_frame image (State.resetWith gpr memInit) Config.loadAddr
  have hreg (q : Reg) : ((State.resetWith gpr memInit).writeBytes Config.loadAddr image).reg q =
      (State.resetWith gpr memInit).reg q := congrArg (·.get q) hx
  refine ⟨_, runSchedule_load_start rfl hlen, rfl, hpc, hreg Reg.sp, hreg Reg.is, hfl, fun k hk => ?inside,
    fun a ha => ?outside⟩
  case inside =>
    have hk' : (BitVec.ofNat 8 k).toNat = k := (BitVec.toNat_ofNat k 8).trans (Nat.mod_eq_of_lt (by omega))
    exact (State.read_writeBytes_loadAddr hlen _).trans (by rw [hk', if_pos hk]; rfl)
  case outside =>
    calc ((State.resetWith gpr memInit).writeBytes Config.loadAddr image).read a
      _ = (State.resetWith gpr memInit).read a := by
        rw [State.read_writeBytes_loadAddr hlen, if_neg (Nat.not_lt.2 ha)]
      _ = memInit a := Memory.read_ofFun memInit a

/-- Settles O56, by the run state: both functions branch on nothing else. -/
theorem haltedRunsShowTheirObservation : Obligations.HaltedRunsShowTheirObservation := by
  refine ⟨fun s r hr => ?halted, fun s hr => ?idle, fun s hr => ?running⟩
  case halted => simp [State.observation, hostRead, hr]
  case idle => simp [State.observation, hostRead, hr]
  case running => simp [State.observation, hostRead, hr]

end Sys2Proof.Machine
end
